-- ==== Sys2Proof/Word.lean ====
section
/-! DEFINITION. The words of the block: byte, 16-bit field, 32-bit address and response value, 64-bit command frame
(00_scope.md R8), and the six calibration fields by name (30_encoding.md R65). -/

namespace Sys2Proof

/-- One byte of the calibration buffer (20_memory.md R41). -/
abbrev Byte := BitVec 8

/-- A pulse width, a gain or a clamp limit: 16 bits unsigned (10_state.md R20). -/
abbrev Half := BitVec 16

/-- A 32-bit word: a response VALUE, a buffer address, a binary32 bit pattern (30_encoding.md R60, R66). -/
abbrev Word := BitVec 32

/-- One command frame (30_encoding.md R60, R68). -/
abbrev Frame := BitVec 64

/-- The calibration fields in the record's order (30_encoding.md R65). -/
inductive CalField where
  | gainPos
  | gainNeg
  | zero
  | min
  | max
  | updatePeriod
  deriving DecidableEq, Repr

end Sys2Proof
end

