-- ==== Sys2Proof/Config.lean ====
section
/-! DEFINITION. What the platform fixes (the parameters of 00_scope.md R8 that are not decided there) and the free values
(`draw_N()` of 00_scope.md R10, listed in 60_exceptions.md R173). The parameters are plain data carried in the state, so that a statement
about every state holds for every choice of them; no step changes them (log 6). -/

namespace Sys2Proof

/-- Parameter `MAP_ARITH` (42_mapper.md R134): the number type of SET's multiply and add. -/
inductive MapArith where
  | binary32
  | binary64
  | exact
  deriving DecidableEq, Repr

/-- Parameter `INVERTED_CLAMP` (42_mapper.md R135): what SET does while `min > max`. -/
inductive InvertedClamp where
  | draw
  | minFirst
  | maxFirst
  deriving DecidableEq, Repr

/-- Parameter `NONCANONICAL_LOAD` (41_codec.md R109): what LOAD does with an admitted window that is no canonical record. -/
inductive NoncanonicalLoad where
  | reject
  | any
  deriving DecidableEq, Repr

/-- A range of buffer addresses, both ends included. -/
structure Region where
  first : Nat
  last  : Nat
  deriving DecidableEq, Repr

/-- The parameters a model takes (00_scope.md R8). `admitted` is `BUF_ADMIT` (20_memory.md R44), written as a finite list of
ranges: every predicate on the 2^32 addresses is one. -/
structure Params where
  mapArith         : MapArith
  invertedClamp    : InvertedClamp
  noncanonicalLoad : NoncanonicalLoad
  admitted         : List Region
  deriving DecidableEq, Repr

/-- The defaults of 00_scope.md R8. DESIGN CHOICE (log 7): `BUF_ADMIT`, which the spec leaves open, admits every address
here (platform P2 of 95_test_vectors.md). -/
def Params.default : Params where
  mapArith         := .binary32
  invertedClamp    := .draw
  noncanonicalLoad := .reject
  admitted         := [⟨0, 0xFFFFFFFF⟩]

/-- `draw_w()` (00_scope.md R10): the `n`-th free value, read at width `w`. It has no body: nothing can be proved of what
it is (log 5). -/
opaque Config.freeValue (w n : Nat) : BitVec w

end Sys2Proof
end

