-- ==== Sys2Proof/Syntax.lean ====
section
/-! DEFINITION. The commands: one constructor per row of spec/opcode_table.json (30_encoding.md R62), operands as
30_encoding.md R61 takes them from the frame. -/

namespace Sys2Proof

/-- A command of the block. -/
inductive Instr where
  /-- INIT (40_lifecycle.md R90). -/
  | init
  /-- ENABLE (40_lifecycle.md R91). -/
  | enable
  /-- DISABLE (40_lifecycle.md R92). -/
  | disable
  /-- SET (42_mapper.md R139): `d` is the binary32 bit pattern in D32. -/
  | set (d : Word)
  /-- SET_RAW (42_mapper.md R140): `w` is the pulse width in IMM16. -/
  | setRaw (w : Half)
  /-- GET_PWM (42_mapper.md R141). -/
  | getPwm
  /-- GET_UPDATE_PERIOD (42_mapper.md R142). -/
  | getUpdatePeriod
  /-- LOAD (41_codec.md R104): `a` is the start address in D32. -/
  | load (a : Word)
  /-- SAVE (41_codec.md R107): `a` is the start address in D32. -/
  | save (a : Word)
  /-- RDCAL (43_field_access.md R160): `k` is the field SEL names. -/
  | rdcal (k : CalField)
  /-- WRCAL (43_field_access.md R161): `k` is the field SEL names, `w` the value in IMM16. -/
  | wrcal (k : CalField) (w : Half)
  /-- GET_ENABLE (40_lifecycle.md R93). -/
  | getEnable
  deriving DecidableEq, Repr

end Sys2Proof
end

