-- ==== Sys2Proof/WellFormed.lean ====
section
/-! DEFINITION. Which commands a frame can spell. The types of the operands leave one check: the value WRCAL writes to the
8-bit `update_period` fits in 8 bits (30_encoding.md R63). -/

namespace Sys2Proof

/-- The value fits the field (30_encoding.md R63, R65): 16 bits for the first five, 8 bits for `update_period`. -/
def CalField.fits : CalField → Half → Bool
  | .updatePeriod, w => w.extractLsb' 8 8 == 0#8
  | .gainPos, _ | .gainNeg, _ | .zero, _ | .min, _ | .max, _ => true

/-- A command some frame decodes to. -/
def Instr.wellFormed : Instr → Bool
  | .wrcal k w => k.fits w
  | .init | .enable | .disable | .set _ | .setRaw _ | .getPwm | .getUpdatePeriod | .load _ | .save _ | .rdcal _
  | .getEnable => true

end Sys2Proof
end

