-- ==== Sys2Proof/Decode.lean ====
section
/-! DEFINITION. The command frame (30_encoding.md part 1): its four fields (R60), the decoder, total on all 2^64 frames and
rejecting by name (R62 to R64, R67), and after it the encoder, written from the same tables. -/

namespace Sys2Proof

/-- Why a frame is illegal (60_exceptions.md R171, the causes of STATUS 2). Every cause has the one response `(ILLEGAL, 0)`;
the name is the model's, for the reader (DESIGN CHOICE, log 13). -/
inductive Illegal where
  /-- `OPC` is none of the twelve of 30_encoding.md R62. -/
  | unknownOpcode
  /-- A field the command does not use is not zero (R63). -/
  | reservedField
  /-- `SEL` above 5 (R65). -/
  | badSelector
  /-- WRCAL of `update_period` with `IMM16[15:8]` not zero (R63). -/
  | periodTooWide
  deriving DecidableEq, Repr

/-- `OPC`, bits 63:56 (R60). -/
def Frame.opc (f : Frame) : BitVec 8 := f.extractLsb' 56 8

/-- `SEL`, bits 55:48 (R60). -/
def Frame.sel (f : Frame) : BitVec 8 := f.extractLsb' 48 8

/-- `IMM16`, bits 47:32 (R60). -/
def Frame.imm16 (f : Frame) : Half := f.extractLsb' 32 16

/-- `D32`, bits 31:0 (R60). -/
def Frame.d32 (f : Frame) : Word := f.extractLsb' 0 32

/-- The calibration field a `SEL` value names (R65). -/
def CalField.ofSel (sel : BitVec 8) : Option CalField :=
  if sel = 0 then some .gainPos
  else if sel = 1 then some .gainNeg
  else if sel = 2 then some .zero
  else if sel = 3 then some .min
  else if sel = 4 then some .max
  else if sel = 5 then some .updatePeriod
  else none

/-- The `SEL` value of a calibration field (R65). -/
def CalField.sel : CalField → BitVec 8
  | .gainPos => 0
  | .gainNeg => 1
  | .zero => 2
  | .min => 3
  | .max => 4
  | .updatePeriod => 5

/-- The command `i`, if the reserved fields are zero (R63). -/
def decodeIf (reservedZero : Bool) (i : Instr) : Except Illegal Instr :=
  if reservedZero then .ok i else .error .reservedField

/-- RDCAL from its fields (R67, case 0x0A). -/
def decodeRdcal (f : Frame) : Except Illegal Instr :=
  match CalField.ofSel f.sel with
  | none => .error .badSelector
  | some k => decodeIf (f.imm16 == 0 && f.d32 == 0) (.rdcal k)

/-- WRCAL from its fields (R67, case 0x0B). -/
def decodeWrcal (f : Frame) : Except Illegal Instr :=
  match CalField.ofSel f.sel with
  | none => .error .badSelector
  | some k => if k.fits f.imm16 then decodeIf (f.d32 == 0) (.wrcal k f.imm16) else .error .periodTooWide

/-- `Decode(frame)` of 30_encoding.md R67: the command, or ILLEGAL with the cause's name. -/
def decode (f : Frame) : Except Illegal Instr :=
  if f.opc = 0x01 then decodeIf (f.sel == 0 && f.imm16 == 0 && f.d32 == 0) .init
  else if f.opc = 0x02 then decodeIf (f.sel == 0 && f.imm16 == 0 && f.d32 == 0) .enable
  else if f.opc = 0x03 then decodeIf (f.sel == 0 && f.imm16 == 0 && f.d32 == 0) .disable
  else if f.opc = 0x04 then decodeIf (f.sel == 0 && f.imm16 == 0) (.set f.d32)
  else if f.opc = 0x05 then decodeIf (f.sel == 0 && f.d32 == 0) (.setRaw f.imm16)
  else if f.opc = 0x06 then decodeIf (f.sel == 0 && f.imm16 == 0 && f.d32 == 0) .getPwm
  else if f.opc = 0x07 then decodeIf (f.sel == 0 && f.imm16 == 0 && f.d32 == 0) .getUpdatePeriod
  else if f.opc = 0x08 then decodeIf (f.sel == 0 && f.imm16 == 0) (.load f.d32)
  else if f.opc = 0x09 then decodeIf (f.sel == 0 && f.imm16 == 0) (.save f.d32)
  else if f.opc = 0x0A then decodeRdcal f
  else if f.opc = 0x0B then decodeWrcal f
  else if f.opc = 0x0C then decodeIf (f.sel == 0 && f.imm16 == 0 && f.d32 == 0) .getEnable
  else .error .unknownOpcode

/-- The decoder on a word numbered as spec/opcode_table.json numbers it: the low `nbits` bits of `w`, the rest zero. A frame
has 64 bits (R68), so a word with a bit above them is no frame. -/
def decodeTableWord (nbits w : Nat) : Option Instr :=
  if w % 2 ^ nbits < 2 ^ 64 then (decode (BitVec.ofNat 64 (w % 2 ^ nbits))).toOption else none

/-- The frame with the given fields (R60). -/
def Frame.ofFields (opc sel : BitVec 8) (imm16 : Half) (d32 : Word) : Frame := opc ++ sel ++ imm16 ++ d32

/-- The frame of a command (R60 to R63), the fields it does not use zero. -/
def encode : Instr → Frame
  | .init => Frame.ofFields 0x01 0 0 0
  | .enable => Frame.ofFields 0x02 0 0 0
  | .disable => Frame.ofFields 0x03 0 0 0
  | .set d => Frame.ofFields 0x04 0 0 d
  | .setRaw w => Frame.ofFields 0x05 0 w 0
  | .getPwm => Frame.ofFields 0x06 0 0 0
  | .getUpdatePeriod => Frame.ofFields 0x07 0 0 0
  | .load a => Frame.ofFields 0x08 0 0 a
  | .save a => Frame.ofFields 0x09 0 0 a
  | .rdcal k => Frame.ofFields 0x0A k.sel 0 0
  | .wrcal k w => Frame.ofFields 0x0B k.sel w 0
  | .getEnable => Frame.ofFields 0x0C 0 0 0

end Sys2Proof
end

