-- ==== Sys2Proof/Machine/State.lean ====
section
/-! DEFINITION. The state of one instance (10_state.md R20), the calibration buffer it reaches (20_memory.md R40), what stands
on its ports (20_memory.md R48, 30_encoding.md R66), the parameters it is built with (00_scope.md R8), and the state after
reset (10_state.md R27, 70_reset_and_hazards.md R190). -/

namespace Sys2Proof.Machine

/-- The calibration buffer (20_memory.md R40): the listed bytes, addresses strictly rising, no byte listed that equals what
an unlisted address reads as. `Memory.wf` in Machine/Ops.lean says so. -/
abbrev Memory := List Host.Cell

/-- The calibration record (10_state.md R20, the first six fields). -/
structure Calibration where
  /-- Applied when input > 0, 100 ns per full-scale unit. -/
  gainPos : Half
  /-- Applied when input ≤ 0. -/
  gainNeg : Half
  /-- Pulse width at input 0, in 100 ns. -/
  zero : Half
  /-- Lower clamp. -/
  min : Half
  /-- Upper clamp. -/
  max : Half
  /-- Minimum interval between pulse updates, in 100 µs. -/
  updatePeriod : Byte
  deriving DecidableEq, Repr

/-- The default calibration (10_state.md R27). -/
def Calibration.initial : Calibration where
  gainPos := 5000
  gainNeg := 5000
  zero := 15000
  min := 9000
  max := 21000
  updatePeriod := 200

/-- `STATUS` by name (30_encoding.md R66); code 3 is never produced. -/
inductive Status where
  | ok
  | fail
  | illegal
  deriving DecidableEq, Repr

/-- `(STATUS, VALUE)` (30_encoding.md R66). -/
structure Response where
  status : Status
  value  : Word
  deriving DecidableEq, Repr

/-- What the outside world does to the block, one item a step (20_memory.md R48,
70_reset_and_hazards.md R190). DESIGN CHOICE (log 3): the schedule is held in the state. -/
inductive Input where
  /-- The host presents a frame on the command port. -/
  | frame (f : Frame)
  /-- The reset input is asserted, between commands (DESIGN CHOICE, log 14); a held reset is this item repeated, with the defaults
  in place from the first on (DESIGN CHOICE, log 15). -/
  | reset
  /-- The storage collaborator writes a byte of the buffer, at any address (DESIGN CHOICE, log 12). -/
  | store (a : Word) (v : Byte)
  deriving DecidableEq, Repr

/-- The machine. `cal`, `pos` and `enableOutput` are the eight fields of 10_state.md R20, all the state the block has; the
other fields are what it reaches and what the model needs to be a function of its state. -/
structure State where
  cal : Calibration
  /-- Current pulse width, in 100 ns. -/
  pos : Half
  /-- Output-enable flag. -/
  enableOutput : Bool
  /-- The calibration buffer, owned by the storage collaborator. -/
  buf : Memory
  /-- What the outside world does next, oldest first. -/
  inputs : List Input
  /-- The response the last step produced, if it produced one: an output, read by no command
  (DESIGN CHOICE, log 4). -/
  response : Option Response
  /-- How many free values have been drawn: the model's own counter (DESIGN CHOICE, log 5). -/
  draws : Nat
  /-- The parameters of 00_scope.md R8; no step changes them (DESIGN CHOICE, log 6). -/
  params : Params
  deriving DecidableEq, Repr

/-- The machine right after reset (10_state.md R27): nothing presented yet (log 3), nothing listed in the buffer
(log 2), `BUF_ADMIT` as log 7 says, no value drawn (log 5). A run starts here or where a statement says (R32, log 1). -/
def State.reset : State where
  cal := Calibration.initial
  pos := 15000
  enableOutput := false
  buf := []
  inputs := []
  response := none
  draws := 0
  params := Params.default

/-- Why the machine stops. -/
inductive Fault where
  /-- `Fault(BUFFER_WINDOW, a)` (60_exceptions.md R172): LOAD or SAVE at `a` names a window that is not admitted, the source's
  undefined behaviour. Raised by LOAD and SAVE only. Safe: nothing is claimed of a run that reaches it. -/
  | bufferWindow (a : Word)
  deriving DecidableEq, Repr

/-- Why an instruction has no meaning. -/
inductive Refusal where
  /-- Raised by an arm of `exec` whose instruction is not modelled. No arm is: nothing raises it. Safe. -/
  | notModelled (mnemonic : String)
  deriving DecidableEq, Repr

end Sys2Proof.Machine
end

