-- ==== Sys2Proof/Machine/Ops.lean ====
section
/-! DEFINITION. The named operations over the buffer, the block's fields, the response, the free values and the inputs. -/

namespace Sys2Proof.Machine

/-- What a buffer byte nothing has written reads as. DESIGN CHOICE (log 2): the spec gives the buffer no contents. -/
def unlistedByte : Byte := 0x00

/-- The canonical form: addresses strictly rising and inside the 32-bit space, no entry equal to `unlistedByte`. -/
abbrev Memory.wf (m : Memory) : Prop :=
  m.Pairwise (fun x y => x.1 < y.1) ∧ ∀ c ∈ m, c.1 < 2 ^ 32 ∧ c.2 ≠ unlistedByte

/-- `MemRead(a, 1)` (20_memory.md R41). -/
def Memory.read : Memory → Nat → Byte
  | [], _ => unlistedByte
  | c :: m, a => if c.1 = a then c.2 else Memory.read m a

/-- Puts an entry for `a` before the first entry at a greater address. -/
def Memory.insert (a : Nat) (v : Byte) : Memory → Memory
  | [] => [(a, v)]
  | c :: m => if a < c.1 then (a, v) :: c :: m else c :: Memory.insert a v m

/-- Takes out every entry for `a`. -/
def Memory.erase (m : Memory) (a : Nat) : Memory := m.filter (fun c => c.1 != a)

/-- `MemWrite(a, 1, v)` (20_memory.md R41). -/
def Memory.write (m : Memory) (a : Nat) (v : Byte) : Memory :=
  if v = unlistedByte then Memory.erase m a else Memory.insert a v (Memory.erase m a)

/-- Reads `n` bytes from `a` up, `a` first (41_codec.md R101). -/
def Memory.readBytes (m : Memory) (a : Nat) : Nat → List Byte
  | 0 => []
  | n + 1 => Memory.read m a :: Memory.readBytes m (a + 1) n

/-- Writes the bytes from `a` up, `a` first (41_codec.md R107). -/
def Memory.writeBytes (m : Memory) (a : Nat) : List Byte → Memory
  | [] => m
  | b :: bs => Memory.writeBytes (Memory.write m a b) (a + 1) bs

/-- `CAL[k]`, zero-extended (00_scope.md R10, 43_field_access.md R160). -/
def Calibration.field (c : Calibration) : CalField → Word
  | .gainPos => c.gainPos.setWidth 32
  | .gainNeg => c.gainNeg.setWidth 32
  | .zero => c.zero.setWidth 32
  | .min => c.min.setWidth 32
  | .max => c.max.setWidth 32
  | .updatePeriod => c.updatePeriod.setWidth 32

/-- `CAL[k] <- w`, the low byte of `w` for `update_period` (43_field_access.md R161). -/
def Calibration.withField (c : Calibration) (k : CalField) (w : Half) : Calibration :=
  match k with
  | .gainPos => { c with gainPos := w }
  | .gainNeg => { c with gainNeg := w }
  | .zero => { c with zero := w }
  | .min => { c with min := w }
  | .max => { c with max := w }
  | .updatePeriod => { c with updatePeriod := w.extractLsb' 0 8 }

/-- `update_period` in pulse-width units (42_mapper.md R142, 20_memory.md R50). -/
def Calibration.periodTicks (c : Calibration) : Word := c.updatePeriod.setWidth 32 * 1000

/-- The two bits of `STATUS` (30_encoding.md R66). -/
def Status.code : Status → BitVec 2
  | .ok => 0
  | .fail => 1
  | .illegal => 2

/-- Writes the six calibration fields. -/
def State.setCal (s : State) (c : Calibration) : State := { s with cal := c }

/-- Writes `pos`. -/
def State.setPos (s : State) (p : Half) : State := { s with pos := p }

/-- Writes the buffer. -/
def State.setBuf (s : State) (m : Memory) : State := { s with buf := m }

/-- `respond(status, value)` (00_scope.md R10, 30_encoding.md R66). -/
def State.respond (s : State) (st : Status) (v : Word) : State := { s with response := some ⟨st, v⟩ }

/-- The step produces no response. -/
def State.noResponse (s : State) : State := { s with response := none }

/-- Takes the oldest input off: `rest` is left. -/
def State.setInputs (s : State) (rest : List Input) : State := { s with inputs := rest }

/-- The next free value, `draw_w()` (00_scope.md R10). -/
def State.drawn (s : State) (w : Nat) : BitVec w := Config.freeValue w s.draws

/-- Counts `n` free values as drawn. -/
def State.skipDraws (s : State) (n : Nat) : State := { s with draws := s.draws + n }

/-- Six free values for the six calibration fields (41_codec.md R106). -/
def Calibration.drawnAt (n : Nat) : Calibration where
  gainPos := Config.freeValue 16 n
  gainNeg := Config.freeValue 16 (n + 1)
  zero := Config.freeValue 16 (n + 2)
  min := Config.freeValue 16 (n + 3)
  max := Config.freeValue 16 (n + 4)
  updatePeriod := Config.freeValue 8 (n + 5)

/-- Every calibration field becomes a free value (41_codec.md R106). -/
def State.drawCal (s : State) : State := (s.setCal (Calibration.drawnAt s.draws)).skipDraws 6

/-- `s.pos <- draw_16()` (42_mapper.md R135, R138). -/
def State.drawPos (s : State) : State := (s.setPos (s.drawn 16)).skipDraws 1

/-- Every field of the block at its default, `pos` at the new `zero` (10_state.md R27, 40_lifecycle.md R90). -/
def State.toDefaults (s : State) : State :=
  { s with cal := Calibration.initial, pos := Calibration.initial.zero, enableOutput := false }

/-- An illegal frame: no field written, no buffer access, response `(ILLEGAL, 0)` (30_encoding.md R64). -/
def State.rejectFrame (s : State) : State := s.respond .illegal 0

/-- The reset input (70_reset_and_hazards.md R190): the defaults, no response, no frame accepted, the buffer untouched. R190 fixes
the fields only when reset ends: that they hold the defaults from the first reset item on, while a held reset is still asserted, is
the model's (DESIGN CHOICE, log 15). -/
def State.applyReset (s : State) : State := s.toDefaults.noResponse

/-- The storage collaborator writes a byte between commands (20_memory.md R48, R52). -/
def State.applyStore (s : State) (a : Word) (v : Byte) : State :=
  (s.setBuf (Memory.write s.buf a.toNat v)).noResponse

/-- Nothing is presented: the block waits (DESIGN CHOICE, log 3). -/
def State.idle (s : State) : State := s.noResponse

/-- What the PWM/timer collaborator samples on the observer port (20_memory.md R50). -/
structure Observation where
  width  : Half
  period : Word
  enable : Bool
  deriving DecidableEq, Repr

/-- The three outputs between commands (20_memory.md R50): `PWM_WIDTH`, `PWM_PERIOD`, `PWM_EN`. -/
def State.observe (s : State) : Observation := ⟨s.pos, s.cal.periodTicks, s.enableOutput⟩

/-- The samples an observer may take while a step from `s` to `t` is in progress (20_memory.md R51): each output is whole and
old or new, the three independently (DEDUCED for a command, log 11; for the
reset input, of which R51 does not speak, DESIGN CHOICE, log 15). -/
def observableDuring (s t : State) (o : Observation) : Bool :=
  (o.width == s.pos || o.width == t.pos)
    && (o.period == s.cal.periodTicks || o.period == t.cal.periodTicks)
    && (o.enable == s.enableOutput || o.enable == t.enableOutput)

end Sys2Proof.Machine
end

