-- ==== Sys2Proof/Machine/Operands.lean ====
section
/-! DEFINITION. The operand forms: the binary32 operand of SET (42_mapper.md R131 to R133) and the buffer window of LOAD and SAVE
(20_memory.md R44).

A number of the mapper is held as an integer count of `2 ^ -149`, the spacing of the binary32 subnormals: every finite
binary32 value, every 16-bit field and every product and sum of them is such a count, exactly (DEDUCED, log 8). -/

namespace Sys2Proof.Machine

/-- A real number in units of `2 ^ -149`, or an infinity. -/
inductive Ext where
  | negInf
  | fin (n : Int)
  | posInf
  deriving DecidableEq, Repr

/-- How many units of `2 ^ -149` make 1. -/
def unitsPerOne : Int := 2 ^ 149

/-- A 16-bit field as a number: exact (42_mapper.md R133, R134). -/
def unitsOf (h : Half) : Int := (h.toNat : Int) * unitsPerOne

/-- `f32(d)` (42_mapper.md R131): the value of a binary32 bit pattern; `none` is NaN. Subnormals keep their value. -/
def f32 (d : Word) : Option Ext :=
  let s := d.extractLsb' 31 1
  let e := (d.extractLsb' 23 8).toNat
  let f := (d.extractLsb' 0 23).toNat
  if e = 255 then
    if f ≠ 0 then none else some (if s = 1 then .negInf else .posInf)
  else
    let magnitude : Int := if e = 0 then f else (2 ^ 23 + f) * 2 ^ (e - 1)
    some (.fin (if s = 1 then -magnitude else magnitude))

/-- SET's input: NaN of any kind is replaced by +0 (42_mapper.md R132). -/
def setInput (d : Word) : Ext := (f32 d).getD (.fin 0)

/-- `x = +inf or x = -inf`. -/
def Ext.isInfinite : Ext → Bool
  | .negInf | .posInf => true
  | .fin _ => false

/-- `x > 0`. -/
def Ext.isPositive : Ext → Bool
  | .negInf => false
  | .fin n => decide (0 < n)
  | .posInf => true

/-- The gain SET multiplies by (42_mapper.md R133): `gain_pos` for `x > 0`, `gain_neg` otherwise, 0 included. -/
def selectGain (c : Calibration) (x : Ext) : Half := if x.isPositive then c.gainPos else c.gainNeg

/-- `BUF_ADMIT(a)` (20_memory.md R44). -/
def bufAdmit (rs : List Region) (a : Nat) : Bool := rs.any (fun r => decide (r.first ≤ a) && decide (a ≤ r.last))

/-- The length of the record and of the window, `REC_LEN` (00_scope.md R8). -/
def recordLength : Nat := 18

/-- `WindowAdmitted(a)` (20_memory.md R44): the window `a .. a+17` does not wrap and every byte of it is admitted. -/
def windowAdmitted (rs : List Region) (a : Word) : Bool :=
  decide (a.toNat + 17 ≤ 0xFFFFFFFF) && (List.range recordLength).all (fun i => bufAdmit rs (a.toNat + i))

/-- The continuation, `(a + 18) mod 2^32` (41_codec.md R103). -/
def continuation (a : Word) : Word := a + 18

end Sys2Proof.Machine
end

