-- ==== Sys2Proof/Machine/Record.lean ====
section
/-! DEFINITION. The 18-byte calibration record (30_encoding.md R72 to R75). -/

namespace Sys2Proof.Machine

/-- `HDR` (30_encoding.md R73). -/
def recordHeader : Byte := 0x96

/-- `T16` (30_encoding.md R73). -/
def tag16 : Byte := 0xCD

/-- `T8` (30_encoding.md R73). -/
def tag8 : Byte := 0xCC

/-- `b[i]`. -/
def byteAt (b : List Byte) (i : Nat) : Byte := b.getD i 0

/-- `{hi, lo}` of the bytes at `k`, `k+1` (30_encoding.md R74). -/
def fieldAt (b : List Byte) (k : Nat) : Half := byteAt b k ++ byteAt b (k + 1)

/-- `Canonical(b)` (30_encoding.md R75): 18 bytes with the header and the six tags in place. -/
def canonical (b : List Byte) : Bool :=
  b.length == recordLength && byteAt b 0 == recordHeader
    && byteAt b 1 == tag16 && byteAt b 4 == tag16 && byteAt b 7 == tag16 && byteAt b 10 == tag16 && byteAt b 13 == tag16
    && byteAt b 16 == tag8

/-- The calibration in a record (41_codec.md R104). -/
def recordFields (b : List Byte) : Calibration where
  gainPos := fieldAt b 2
  gainNeg := fieldAt b 5
  zero := fieldAt b 8
  min := fieldAt b 11
  max := fieldAt b 14
  updatePeriod := byteAt b 17

/-- A tagged 16-bit field, the more significant byte first (30_encoding.md R72, R74). -/
def encodeField (h : Half) : List Byte := [tag16, h.extractLsb' 8 8, h.extractLsb' 0 8]

/-- The record of a calibration (41_codec.md R107). -/
def encodeRecord (c : Calibration) : List Byte :=
  [recordHeader] ++ encodeField c.gainPos ++ encodeField c.gainNeg ++ encodeField c.zero ++ encodeField c.min
    ++ encodeField c.max ++ [tag8, c.updatePeriod]

end Sys2Proof.Machine
end

