-- ==== Sys2Proof/Machine/Codec.lean ====
section
/-! DEFINITION. LOAD and SAVE (41_codec.md). -/

namespace Sys2Proof.Machine

/-- LOAD of a window that is no canonical record (41_codec.md R106, R109): the calibration is drawn; the response is FAIL,
or, under `NONCANONICAL_LOAD` = `any`, FAIL or OK as a free bit chooses. -/
def loadRejected (a : Word) (s : State) : State :=
  match s.params.noncanonicalLoad with
  | .reject => s.drawCal.respond .fail 0
  | .any =>
    if s.drawn 1 = 1 then (s.skipDraws 1).drawCal.respond .ok (continuation a)
    else (s.skipDraws 1).drawCal.respond .fail 0

/-- LOAD (41_codec.md R104): the window check, the 18 reads, then acceptance (60_exceptions.md R174). -/
def execLoad (a : Word) (s : State) : Host.Outcome State Fault Refusal :=
  if windowAdmitted s.params.admitted a then
    let b := Memory.readBytes s.buf a.toNat recordLength
    if canonical b then .next ((s.setCal (recordFields b)).respond .ok (continuation a))
    else .next (loadRejected a s)
  else .fault (.bufferWindow a)

/-- SAVE (41_codec.md R107): the window check, then the 18 writes. -/
def execSave (a : Word) (s : State) : Host.Outcome State Fault Refusal :=
  if windowAdmitted s.params.admitted a then
    .next ((s.setBuf (Memory.writeBytes s.buf a.toNat (encodeRecord s.cal))).respond .ok (continuation a))
  else .fault (.bufferWindow a)

end Sys2Proof.Machine
end

