-- ==== Sys2Proof/Machine/FieldAccess.lean ====
section
/-! DEFINITION. RDCAL and WRCAL (43_field_access.md). -/

namespace Sys2Proof.Machine

/-- RDCAL (43_field_access.md R160). -/
def execRdcal (k : CalField) (s : State) : Host.Outcome State Fault Refusal := .next (s.respond .ok (s.cal.field k))

/-- WRCAL (43_field_access.md R161). -/
def execWrcal (k : CalField) (w : Half) (s : State) : Host.Outcome State Fault Refusal :=
  .next ((s.setCal (s.cal.withField k w)).respond .ok 0)

end Sys2Proof.Machine
end

