-- ==== Sys2Proof/Machine/Flags.lean ====
section
/-! DEFINITION. The one flag, `enable_output` (10_state.md R25, R26). There is no other flag and no condition code: no command
sets a carry, overflow, zero, sticky-error or floating-point exception flag. -/

namespace Sys2Proof.Machine

/-- Writes `enable_output`. -/
def State.setEnable (s : State) (b : Bool) : State := { s with enableOutput := b }

/-- `s.enable_output ? 1 : 0` (40_lifecycle.md R93). -/
def State.enableValue (s : State) : Word := if s.enableOutput then 1 else 0

end Sys2Proof.Machine
end

