-- ==== Sys2Proof/Machine/Lifecycle.lean ====
section
/-! DEFINITION. INIT, ENABLE, DISABLE, GET_ENABLE (40_lifecycle.md). -/

namespace Sys2Proof.Machine

/-- INIT (40_lifecycle.md R90). -/
def execInit (s : State) : Host.Outcome State Fault Refusal := .next (s.toDefaults.respond .ok 0)

/-- ENABLE (40_lifecycle.md R91). -/
def execEnable (s : State) : Host.Outcome State Fault Refusal := .next ((s.setEnable true).respond .ok 0)

/-- DISABLE (40_lifecycle.md R92). -/
def execDisable (s : State) : Host.Outcome State Fault Refusal := .next ((s.setEnable false).respond .ok 0)

/-- GET_ENABLE (40_lifecycle.md R93). -/
def execGetEnable (s : State) : Host.Outcome State Fault Refusal := .next (s.respond .ok s.enableValue)

end Sys2Proof.Machine
end

