-- ==== Sys2Proof/Machine/MapArithmetic.lean ====
section
/-! DEFINITION. SET's arithmetic (42_mapper.md R134 to R136): multiply and add under `MAP_ARITH`, each rounded on its own, then
the clamp and the truncation. Numbers are counts of `2 ^ -149` (Machine/Operands.lean). -/

namespace Sys2Proof.Machine

/-- How far the last of `p` significant bits of a number with integer part `q` lies above the unit. -/
def ulpShift (p q : Nat) : Nat := Nat.log2 q + 1 - p

/-- The quotient `n / d` rounded to the nearest multiple of its last place at `p` significant bits (never below one unit),
ties to the even one (42_mapper.md R134, `r32` and `r64`). Exact arithmetic takes `d = 1`. -/
def roundNearestEven (p n d : Nat) : Nat :=
  let k := ulpShift p (n / d)
  let u := d * 2 ^ k
  let q := n / u
  let r := n % u
  (if u < 2 * r ∨ (2 * r = u ∧ q % 2 = 1) then q + 1 else q) * 2 ^ k

/-- The least magnitude that rounds to infinity in binary32, `2^128 - 2^103`, in units (42_mapper.md R134, 90_conflicts.md C6). -/
def overflow32 : Nat := (2 ^ 128 - 2 ^ 103) * 2 ^ 149

/-- The same for binary64, `2^1024 - 2^970 = (2^54 - 1) * 2^970`, in units; the power is written as a product of powers Lean
evaluates (`overflow64_eq` in Laws). -/
def overflow64 : Nat := (2 ^ 54 - 1) * 2 ^ 250 * 2 ^ 250 * 2 ^ 250 * 2 ^ 220 * 2 ^ 149

/-- Round to nearest even at `p` bits, to infinity from `limit` on (42_mapper.md R134). Every number here is a count of
`2 ^ -149`, so binary64 meets none of its subnormals (DEDUCED, log 8). -/
def roundTo (p limit : Nat) (y : Int) : Ext :=
  if limit ≤ y.natAbs then (if y < 0 then .negInf else .posInf)
  else .fin (if y < 0 then -(roundNearestEven p y.natAbs 1 : Int) else (roundNearestEven p y.natAbs 1 : Int))

/-- The rounding of each operation under `MAP_ARITH` (42_mapper.md R134). -/
def roundUnder : MapArith → Int → Ext
  | .binary32, y => roundTo 24 overflow32 y
  | .binary64, y => roundTo 53 overflow64 y
  | .exact, y => .fin y

/-- `MUL(x, g)` (42_mapper.md R134). An infinity keeps its sign; infinity times a zero gain does not come here (R138). -/
def mapMul (A : MapArith) (x : Ext) (g : Half) : Ext :=
  match x with
  | .negInf => .negInf
  | .fin n => roundUnder A (n * g.toNat)
  | .posInf => .posInf

/-- `ADD(zero, p)` (42_mapper.md R134). -/
def mapAdd (A : MapArith) (zero : Half) (p : Ext) : Ext :=
  match p with
  | .negInf => .negInf
  | .fin n => roundUnder A (unitsOf zero + n)
  | .posInf => .posInf

/-- The clamp that tests `v < min` first (42_mapper.md R135). -/
def clampMinFirst (lo hi : Int) (v : Ext) : Int :=
  match v with
  | .negInf => lo
  | .fin n => if n < lo then lo else if hi < n then hi else n
  | .posInf => hi

/-- The clamp that tests `v > max` first, for `INVERTED_CLAMP` = `max_first` (42_mapper.md R135). -/
def clampMaxFirst (lo hi : Int) (v : Ext) : Int :=
  match v with
  | .negInf => lo
  | .fin n => if hi < n then hi else if n < lo then lo else n
  | .posInf => hi

/-- The clamp: `min` first, but under an inverted clamp with `INVERTED_CLAMP` = `max_first` (42_mapper.md R135). -/
def clampTo (ic : InvertedClamp) (lo hi : Half) (v : Ext) : Int :=
  if hi < lo ∧ ic = .maxFirst then clampMaxFirst (unitsOf lo) (unitsOf hi) v
  else clampMinFirst (unitsOf lo) (unitsOf hi) v

/-- `trunc(v)` of a clamped number (42_mapper.md R136): its integer part, which fits in 16 bits. -/
def truncate (n : Int) : Half := BitVec.ofInt 16 (n / unitsPerOne)

/-- Steps 3 to 5 of 42_mapper.md R130 on an input and its gain. -/
def mapPosition (P : Params) (c : Calibration) (x : Ext) (g : Half) : Half :=
  truncate (clampTo P.invertedClamp c.min c.max (mapAdd P.mapArith c.zero (mapMul P.mapArith x g)))

end Sys2Proof.Machine
end

