-- ==== Sys2Proof/Machine/Mapper.lean ====
section
/-! DEFINITION. SET, SET_RAW, GET_PWM, GET_UPDATE_PERIOD (42_mapper.md). -/

namespace Sys2Proof.Machine

/-- SET (42_mapper.md R139). The two draw cases come first: an infinite input with a zero gain (R138), then an inverted
clamp under `INVERTED_CLAMP` = `draw` (R135). -/
def execSet (d : Word) (s : State) : Host.Outcome State Fault Refusal :=
  let x := setInput d
  let g := selectGain s.cal x
  if x.isInfinite = true ∧ g = 0 then .next (s.drawPos.respond .ok 0)
  else if s.cal.max < s.cal.min ∧ s.params.invertedClamp = .draw then .next (s.drawPos.respond .ok 0)
  else .next ((s.setPos (mapPosition s.params s.cal x g)).respond .ok 0)

/-- SET_RAW (42_mapper.md R140). -/
def execSetRaw (w : Half) (s : State) : Host.Outcome State Fault Refusal := .next ((s.setPos w).respond .ok 0)

/-- GET_PWM (42_mapper.md R141). -/
def execGetPwm (s : State) : Host.Outcome State Fault Refusal := .next (s.respond .ok (s.pos.setWidth 32))

/-- GET_UPDATE_PERIOD (42_mapper.md R142). -/
def execGetUpdatePeriod (s : State) : Host.Outcome State Fault Refusal := .next (s.respond .ok s.cal.periodTicks)

end Sys2Proof.Machine
end

