-- ==== Sys2Proof/Machine/Dispatch.lean ====
section
/-! DEFINITION. One arm per command, each a direct call of its meaning. -/

namespace Sys2Proof.Machine

def exec (i : Instr) (s : State) : Host.Outcome State Fault Refusal :=
  match i with
  | .init => Sys2Proof.Machine.execInit s
  | .enable => Sys2Proof.Machine.execEnable s
  | .disable => Sys2Proof.Machine.execDisable s
  | .set d => Sys2Proof.Machine.execSet d s
  | .setRaw w => Sys2Proof.Machine.execSetRaw w s
  | .getPwm => Sys2Proof.Machine.execGetPwm s
  | .getUpdatePeriod => Sys2Proof.Machine.execGetUpdatePeriod s
  | .load a => Sys2Proof.Machine.execLoad a s
  | .save a => Sys2Proof.Machine.execSave a s
  | .rdcal k => Sys2Proof.Machine.execRdcal k s
  | .wrcal k w => Sys2Proof.Machine.execWrcal k w s
  | .getEnable => Sys2Proof.Machine.execGetEnable s

end Sys2Proof.Machine
end

