-- ==== Sys2Proof/Machine/Step.lean ====
section
/-! DEFINITION. One step: the oldest input is taken and acted on to its end (20_memory.md R49); with none, the block waits. A
frame is decoded before any state is read or written (30_encoding.md R67, 60_exceptions.md R174). -/

namespace Sys2Proof.Machine

/-- One frame off the command port: the command it decodes to, or the ILLEGAL response (30_encoding.md R64, R67). -/
def stepFrame (f : Frame) (s : State) : Host.Outcome State Fault Refusal :=
  match decode f with
  | .ok i => exec i s
  | .error _ => .next s.rejectFrame

/-- One step of the machine. -/
def step (s : State) : Host.Outcome State Fault Refusal :=
  match s.inputs with
  | [] => .next s.idle
  | .frame f :: rest => stepFrame f (s.setInputs rest)
  | .reset :: rest => .next (s.setInputs rest).applyReset
  | .store a v :: rest => .next ((s.setInputs rest).applyStore a v)

/-- `s` with the frame of the table word `w` presented first on the command port: the next step runs it. -/
def State.withFetchWord (s : State) (nbits w : Nat) : State :=
  s.setInputs (.frame (BitVec.ofNat 64 (w % 2 ^ nbits)) :: s.inputs)

end Sys2Proof.Machine
end

