-- ==== Sys2Proof/Machine/Assembler.lean ====
section
/-! DEFINITION. The assembler's lines and the frames they stand for (30_encoding.md R69 to R71): a tool of the host, outside the
block. `none` is an assembler error, which is not an illegal frame. -/

namespace Sys2Proof.Machine

/-- One line (R69, R70), its operands read but not yet range-checked. -/
inductive AsmLine where
  /-- A line whose mnemonic takes no operand. -/
  | plain (i : Instr)
  /-- `SET #0xHHHHHHHH`, and the literals `nan`, `+inf`, `-inf`. -/
  | setBits (d : Word)
  /-- `SET <decimal>`: the number `mantissa / 10 ^ scale`, negated if `negative`. -/
  | setDecimal (negative : Bool) (mantissa scale : Nat)
  /-- `SET_RAW #<u16>`. -/
  | setRaw (n : Nat)
  /-- `LOAD [<addr>]`. -/
  | load (a : Nat)
  /-- `SAVE [<addr>]`. -/
  | save (a : Nat)
  /-- `RDCAL <field>`. -/
  | rdcal (k : CalField)
  /-- `WRCAL <field>, #<value>`. -/
  | wrcal (k : CalField) (n : Nat)
  /-- `NEUTRAL` (R70). -/
  | neutral
  /-- `RAWNEUTRAL #<u16>` (R70). -/
  | rawNeutral (n : Nat)
  deriving DecidableEq, Repr

/-- The binary32 pattern of a magnitude in units of `2 ^ -149` that has at most 24 significant bits (42_mapper.md R131);
infinity from `2 ^ 128` on (DEDUCED, log 10). -/
def binary32Pattern (negative : Bool) (m : Nat) : Word :=
  let sign : BitVec 1 := if negative then 1 else 0
  if 2 ^ 128 * 2 ^ 149 ≤ m then sign ++ (255 : BitVec 8) ++ (0 : BitVec 23)
  else if m < 2 ^ 23 then sign ++ (0 : BitVec 8) ++ BitVec.ofNat 23 m
  else
    let k := Nat.log2 m - 23
    sign ++ BitVec.ofNat 8 (k + 1) ++ BitVec.ofNat 23 (m / 2 ^ k)

/-- The binary32 nearest the decimal `mantissa / 10 ^ scale`, ties to even (R69). -/
def nearestBinary32 (negative : Bool) (mantissa scale : Nat) : Word :=
  binary32Pattern negative (roundNearestEven 24 (mantissa * 2 ^ 149) (10 ^ scale))

/-- A 16-bit operand, if in range. -/
def half? (n : Nat) : Option Half := if n < 2 ^ 16 then some (BitVec.ofNat 16 n) else none

/-- A 32-bit operand, if in range. -/
def word? (n : Nat) : Option Word := if n < 2 ^ 32 then some (BitVec.ofNat 32 n) else none

/-- The command of a line (R69, R70), if its operands are in range. -/
def AsmLine.instr? : AsmLine → Option Instr
  | .plain i => some i
  | .setBits d => some (.set d)
  | .setDecimal negative mantissa scale => some (.set (nearestBinary32 negative mantissa scale))
  | .setRaw n => (half? n).map .setRaw
  | .load a => (word? a).map .load
  | .save a => (word? a).map .save
  | .rdcal k => some (.rdcal k)
  | .wrcal k n => (half? n).bind (fun w => if k.fits w then some (.wrcal k w) else none)
  | .neutral => some (.set 0)
  | .rawNeutral n => (half? n).map .setRaw

/-- The frame of a line. -/
def assemble (l : AsmLine) : Option Frame := l.instr?.map encode

/-- The value of a digit, if it is one in the base. -/
def digit? (base : Nat) (c : Char) : Option Nat :=
  let v :=
    if '0' ≤ c ∧ c ≤ '9' then c.toNat - '0'.toNat
    else if 'A' ≤ c ∧ c ≤ 'F' then c.toNat - 'A'.toNat + 10
    else if 'a' ≤ c ∧ c ≤ 'f' then c.toNat - 'a'.toNat + 10
    else base
  if v < base then some v else none

/-- The digits of a number, most significant first, after those already read. -/
def digits? (base : Nat) : Nat → List Char → Option Nat
  | acc, [] => some acc
  | acc, c :: cs => (digit? base c).bind (fun v => digits? base (acc * base + v) cs)

/-- An unsigned number: hexadecimal after `0x`, decimal otherwise (DESIGN CHOICE, log 10). -/
def number? : List Char → Option Nat
  | '0' :: 'x' :: c :: cs => digits? 16 0 (c :: cs)
  | c :: cs => digits? 10 0 (c :: cs)
  | [] => none

/-- `#<number>`. -/
def immediate? : List Char → Option Nat
  | '#' :: cs => number? cs
  | _ => none

/-- `[<addr>]`. -/
def address? : List Char → Option Nat
  | '[' :: cs => if cs.getLast? = some ']' then number? cs.dropLast else none
  | _ => none

/-- A field name (R69). -/
def field? (cs : List Char) : Option CalField :=
  if cs = "gain_pos".toList then some .gainPos
  else if cs = "gain_neg".toList then some .gainNeg
  else if cs = "zero".toList then some .zero
  else if cs = "min".toList then some .min
  else if cs = "max".toList then some .max
  else if cs = "update_period".toList then some .updatePeriod
  else none

/-- An unsigned decimal: digits, or digits, a point and digits (DESIGN CHOICE, log 10). -/
def decimal? (negative : Bool) (cs : List Char) : Option AsmLine :=
  let whole := cs.takeWhile (· ≠ '.')
  let rest := cs.dropWhile (· ≠ '.')
  let fraction := rest.drop 1
  if whole = [] ∨ rest = ['.'] then none
  else (digits? 10 0 (whole ++ fraction)).map (fun m => .setDecimal negative m fraction.length)

/-- SET's operand (R69). -/
def setOperand? (cs : List Char) : Option AsmLine :=
  if cs = "nan".toList then some (.setBits 0x7FC00000)
  else if cs = "+inf".toList then some (.setBits 0x7F800000)
  else if cs = "-inf".toList then some (.setBits 0xFF800000)
  else
    match cs with
    | '#' :: '0' :: 'x' :: h =>
      if h.length = 8 then (digits? 16 0 h).map (fun n => .setBits (BitVec.ofNat 32 n)) else none
    | '-' :: ds => decimal? true ds
    | '+' :: ds => decimal? false ds
    | ds => decimal? false ds

/-- The line a mnemonic and its operands spell (R69, R70), the operands split at commas. -/
def line? (mnemonic : List Char) (operands : List (List Char)) : Option AsmLine :=
  match operands with
  | [] =>
    if mnemonic = "INIT".toList then some (.plain .init)
    else if mnemonic = "ENABLE".toList then some (.plain .enable)
    else if mnemonic = "DISABLE".toList then some (.plain .disable)
    else if mnemonic = "GET_PWM".toList then some (.plain .getPwm)
    else if mnemonic = "GET_UPDATE_PERIOD".toList then some (.plain .getUpdatePeriod)
    else if mnemonic = "GET_ENABLE".toList then some (.plain .getEnable)
    else if mnemonic = "NEUTRAL".toList then some .neutral
    else none
  | [x] =>
    if mnemonic = "SET".toList then setOperand? x
    else if mnemonic = "SET_RAW".toList then (immediate? x).map .setRaw
    else if mnemonic = "RAWNEUTRAL".toList then (immediate? x).map .rawNeutral
    else if mnemonic = "LOAD".toList then (address? x).map .load
    else if mnemonic = "SAVE".toList then (address? x).map .save
    else if mnemonic = "RDCAL".toList then (field? x).map .rdcal
    else none
  | [x, y] =>
    if mnemonic = "WRCAL".toList then (field? x).bind (fun k => (immediate? y).map (.wrcal k)) else none
  | _ => none

/-- The frame of a line of text (R69): a mnemonic, then operands separated by commas. -/
def assembleText (text : String) : Option Frame :=
  let cs := text.toList
  let mnemonic := cs.takeWhile (· ≠ ' ')
  let operands := (cs.dropWhile (· ≠ ' ')).filter (· ≠ ' ')
  (line? mnemonic (if operands = [] then [] else operands.splitOn ',')).bind assemble

end Sys2Proof.Machine
end

