-- ==== Sys2Proof/Machine/Instances.lean ====
section
/-! DEFINITION. Several instances of the block (60_exceptions.md R183, 10_state.md R31): each has its own state and its own
command port; they share nothing but possibly the buffer. -/

namespace Sys2Proof.Machine

/-- A system of instances over one buffer. The buffer and the counter of free values of the system stand for those of each
instance: an instance's own copies are stale between its steps. DESIGN CHOICE (log 9). -/
structure System where
  instances : List State
  buf       : Memory
  draws     : Nat
  deriving DecidableEq, Repr

/-- Instance `s` with the system's buffer before it. -/
def System.focus (sys : System) (s : State) : State := { s with buf := sys.buf, draws := sys.draws }

/-- The system after instance `k` became `t`. -/
def System.update (sys : System) (k : Nat) (t : State) : System :=
  { instances := sys.instances.set k t, buf := t.buf, draws := t.draws }

/-- One step of instance `k`; a number that names no instance does nothing. Which instance steps next is the caller's choice:
instances have no order among them (60_exceptions.md R183). -/
def System.step (sys : System) (k : Nat) : Host.Outcome System Fault Refusal :=
  match sys.instances[k]? with
  | none => .next sys
  | some s =>
    match Sys2Proof.Machine.step (sys.focus s) with
    | .next t => .next (sys.update k t)
    | .fault r => .fault r
    | .refused r => .refused r

end Sys2Proof.Machine
end

