-- ==== Sys2Proof/Safety.lean ====
section
/-! DEFINITION. What counts as a safe run, in the terms the statements use: inputs that never reach the faulted outcome
(60_exceptions.md R172: every claim about a run takes "no fault" as a premise), the invariant every step keeps, the cases of SET in
which no value is drawn, and what two states must share for a claim that a field influences nothing. -/

namespace Sys2Proof.Machine

/-- The buffer is in its canonical form. -/
def State.Inv (s : State) : Prop := Memory.wf s.buf

/-- The calibration's clamp is not inverted (42_mapper.md R135; the host's duty in 70_reset_and_hazards.md R203). -/
abbrev Calibration.ordered (c : Calibration) : Prop := c.min ≤ c.max

/-- The command does not name an inadmissible window under the parameters (20_memory.md R44, 70_reset_and_hazards.md R204). -/
def Instr.windowOk (P : Params) : Instr → Bool
  | .load a => windowAdmitted P.admitted a
  | .save a => windowAdmitted P.admitted a
  | .init | .enable | .disable | .set _ | .setRaw _ | .getPwm | .getUpdatePeriod | .rdcal _ | .wrcal _ _ | .getEnable => true

/-- An input that cannot fault. -/
def Input.safe (P : Params) : Input → Bool
  | .frame f =>
    match decode f with
    | .ok i => Instr.windowOk P i
    | .error _ => true
  | .reset => true
  | .store _ _ => true

/-- Nothing the host presents names an inadmissible window. -/
def State.safeInputs (s : State) : Bool := s.inputs.all (Input.safe s.params)

/-- SET of `d` draws its result (60_exceptions.md R173): an infinite input with a zero selected gain, or an inverted clamp under
`INVERTED_CLAMP` = `draw`. -/
def setDraws (d : Word) (s : State) : Bool :=
  ((setInput d).isInfinite && selectGain s.cal (setInput d) == 0)
    || (decide (s.cal.max < s.cal.min) && s.params.invertedClamp == .draw)

/-- `x` is at most `y`. -/
def Ext.le : Ext → Ext → Prop
  | .negInf, _ => True
  | _, .posInf => True
  | .fin m, .fin n => m ≤ n
  | .fin _, .negInf => False
  | .posInf, .fin _ => False
  | .posInf, .negInf => False

/-- The magnitude `n` (in units of `2 ^ -149`) has a representation with at most `p` significant bits: it is a value of the
float format of `p` bits, the bound on its size aside (42_mapper.md R134). -/
def Representable (p n : Nat) : Prop := ∃ m k : Nat, m < 2 ^ p ∧ n = m * 2 ^ k

/-- The input is no frame that decodes to GET_ENABLE, the one command that reads the flag (10_state.md R22). -/
def Input.readsFlag : Input → Bool
  | .frame f =>
    match decode f with
    | .ok .getEnable => true
    | _ => false
  | .reset => false
  | .store _ _ => false

/-- The two states agree on everything but `enable_output`. -/
def sameButFlag (s t : State) : Prop := t.setEnable s.enableOutput = s

/-- The two outcomes are the same stop, or next states that agree on everything but `enable_output`. -/
def outcomesSameButFlag : Host.Outcome State Fault Refusal → Host.Outcome State Fault Refusal → Prop
  | .next s, .next t => sameButFlag s t
  | .fault r, .fault q => r = q
  | .refused r, .refused q => r = q
  | _, _ => False

end Sys2Proof.Machine
end

