-- ==== Sys2Proof/Certificates/Slice0/Obligations.lean ====
section
/-! DEFINITION. What is claimed of the model, from the numbered rules of spec/. A statement about `step` reads the command port
and the reset input as the list `inputs` and the response port as `response`: the model's form of these ports (DESIGN CHOICE, log
3 and log 4), which adds no effect to the rules. -/

namespace Sys2Proof.Machine

/-- The real number (a rational) of a count of `2 ^ -149`. -/
def realOf (n : Int) : ℚ := (n : ℚ) / 2 ^ 149

/-- A 16-bit field as a rational. -/
def realOfHalf (h : Half) : ℚ := (h.toNat : ℚ)

/-- 30_encoding.md R62 and R63 read off the bits of the frame. -/
def legalFrame (f : Frame) : Prop :=
  (1 ≤ (f.extractLsb 63 56).toNat ∧ (f.extractLsb 63 56).toNat ≤ 12) ∧
  (f.extractLsb 63 56 ≠ 0x0A → f.extractLsb 63 56 ≠ 0x0B → f.extractLsb 55 48 = 0) ∧
  (f.extractLsb 63 56 ≠ 0x05 → f.extractLsb 63 56 ≠ 0x0B → f.extractLsb 47 32 = 0) ∧
  (f.extractLsb 63 56 ≠ 0x04 → f.extractLsb 63 56 ≠ 0x08 → f.extractLsb 63 56 ≠ 0x09 → f.extractLsb 31 0 = 0) ∧
  (f.extractLsb 63 56 = 0x0A ∨ f.extractLsb 63 56 = 0x0B → (f.extractLsb 55 48).toNat ≤ 5) ∧
  (f.extractLsb 63 56 = 0x0B → f.extractLsb 55 48 = 5 → f.extractLsb 47 40 = 0)

/-- The 18 bytes of 30_encoding.md R72, offset by offset. -/
def recordLayout (c : Calibration) : List Byte :=
  [0x96,
   0xCD, c.gainPos.extractLsb 15 8, c.gainPos.extractLsb 7 0,
   0xCD, c.gainNeg.extractLsb 15 8, c.gainNeg.extractLsb 7 0,
   0xCD, c.zero.extractLsb 15 8, c.zero.extractLsb 7 0,
   0xCD, c.min.extractLsb 15 8, c.min.extractLsb 7 0,
   0xCD, c.max.extractLsb 15 8, c.max.extractLsb 7 0,
   0xCC, c.updatePeriod]

/-- `Canonical` of 30_encoding.md R75 on the window of the buffer at `a`. -/
def canonicalAt (m : Memory) (a : Nat) : Prop :=
  Memory.read m a = 0x96 ∧ Memory.read m (a + 1) = 0xCD ∧ Memory.read m (a + 4) = 0xCD ∧ Memory.read m (a + 7) = 0xCD ∧
    Memory.read m (a + 10) = 0xCD ∧ Memory.read m (a + 13) = 0xCD ∧ Memory.read m (a + 16) = 0xCC

/-- The calibration in the window of the buffer at `a` (30_encoding.md R72, R74). -/
def calibrationAt (m : Memory) (a : Nat) : Calibration where
  gainPos := Memory.read m (a + 2) ++ Memory.read m (a + 3)
  gainNeg := Memory.read m (a + 5) ++ Memory.read m (a + 6)
  zero := Memory.read m (a + 8) ++ Memory.read m (a + 9)
  min := Memory.read m (a + 11) ++ Memory.read m (a + 12)
  max := Memory.read m (a + 14) ++ Memory.read m (a + 15)
  updatePeriod := Memory.read m (a + 17)

/-- The window is admitted: 20_memory.md R44 in its own words. -/
def admittedAt (rs : List Region) (a : Word) : Prop :=
  a.toNat + 17 ≤ 2 ^ 32 - 1 ∧ ∀ i, i ≤ 17 → ∃ r ∈ rs, r.first ≤ a.toNat + i ∧ a.toNat + i ≤ r.last

/-- The zero offset clamped to `[min, max]`. -/
def clampedZero (c : Calibration) : Half := if c.zero < c.min then c.min else if c.max < c.zero then c.max else c.zero

/-- The state under another `MAP_ARITH`. -/
def withArith (s : State) (A : MapArith) : State := { s with params := { s.params with mapArith := A } }

/-- The value (in units of `2 ^ -149`) is a finite binary32 value. -/
def binary32Value (y : Int) : Prop := Representable 24 y.natAbs ∧ y.natAbs < overflow32

/-- The value SET clamps: `ADD(zero, MUL(x, g))` of 42_mapper.md R134. -/
def unclamped (d : Word) (s : State) : Ext :=
  mapAdd s.params.mapArith s.cal.zero (mapMul s.params.mapArith (setInput d) (selectGain s.cal (setInput d)))

end Sys2Proof.Machine

open Sys2Proof Sys2Proof.Machine

/-! ### Encodings -/

/-- 30_encoding.md R71, line by line: the assembly stands for the frame, and the frame decodes to the command. -/
def Obligations.EncodingExamplesHold : Prop :=
  (assembleText "INIT" = some 0x0100000000000000 ∧ decode 0x0100000000000000 = .ok .init) ∧
  (assembleText "ENABLE" = some 0x0200000000000000 ∧ decode 0x0200000000000000 = .ok .enable) ∧
  (assembleText "DISABLE" = some 0x0300000000000000 ∧ decode 0x0300000000000000 = .ok .disable) ∧
  (assembleText "SET 0.5" = some 0x040000003F000000 ∧ decode 0x040000003F000000 = .ok (.set 0x3F000000)) ∧
  (assembleText "SET -1" = some 0x04000000BF800000 ∧ decode 0x04000000BF800000 = .ok (.set 0xBF800000)) ∧
  (assembleText "SET_RAW #10000" = some 0x0500271000000000 ∧ decode 0x0500271000000000 = .ok (.setRaw 10000)) ∧
  (assembleText "GET_PWM" = some 0x0600000000000000 ∧ decode 0x0600000000000000 = .ok .getPwm) ∧
  (assembleText "GET_UPDATE_PERIOD" = some 0x0700000000000000 ∧ decode 0x0700000000000000 = .ok .getUpdatePeriod) ∧
  (assembleText "LOAD [0x100]" = some 0x0800000000000100 ∧ decode 0x0800000000000100 = .ok (.load 0x100)) ∧
  (assembleText "SAVE [0x200]" = some 0x0900000000000200 ∧ decode 0x0900000000000200 = .ok (.save 0x200)) ∧
  (assembleText "RDCAL max" = some 0x0A04000000000000 ∧ decode 0x0A04000000000000 = .ok (.rdcal .max)) ∧
  (assembleText "WRCAL zero, #13000" = some 0x0B0232C800000000 ∧ decode 0x0B0232C800000000 = .ok (.wrcal .zero 13000)) ∧
  (assembleText "WRCAL update_period, #20" = some 0x0B05001400000000 ∧
    decode 0x0B05001400000000 = .ok (.wrcal .updatePeriod 20)) ∧
  (assembleText "GET_ENABLE" = some 0x0C00000000000000 ∧ decode 0x0C00000000000000 = .ok .getEnable)

/-- 30_encoding.md R70: NEUTRAL is SET of +0, RAWNEUTRAL is SET_RAW, each one frame. -/
def Obligations.PseudoInstructionsExpand : Prop :=
  assemble .neutral = some 0x0400000000000000 ∧
  (∀ n, assemble (.rawNeutral n) = assemble (.setRaw n)) ∧
  (∀ w : Half, assemble (.rawNeutral w.toNat) = some (0x05#8 ++ 0#8 ++ w ++ 0#32))

/-- 30_encoding.md R63 and R64: the frames that decode are exactly those whose opcode is one of the twelve and whose reserved
fields are zero; any other writes nothing and is answered `(ILLEGAL, 0)`. -/
def Obligations.IllegalFramesAreAnsweredAndWriteNothing : Prop :=
  (∀ f : Frame, (∃ i, decode f = .ok i) ↔ legalFrame f) ∧
  (∀ (s : State) (f : Frame) (rest : List Input), s.inputs = .frame f :: rest → ¬ legalFrame f →
    step s = .next { s with inputs := rest, response := some ⟨.illegal, 0⟩ })

/-- 30_encoding.md R60 to R63, R67: no bit of an encoding is dropped. -/
def Obligations.DecodeOfEncodeIsTheCommand : Prop := ∀ i : Instr, i.wellFormed = true → decode (encode i) = .ok i

/-- 30_encoding.md R67: a frame that decodes is the frame of a well-formed command, so no two frames are one command. -/
def Obligations.EncodeOfDecodeIsTheFrame : Prop :=
  ∀ (f : Frame) (i : Instr), decode f = .ok i → i.wellFormed = true ∧ encode i = f

/-- 30_encoding.md R72 with R73 and R74: the record, offset by offset. -/
def Obligations.RecordHasTheLayout : Prop := ∀ c : Calibration, encodeRecord c = recordLayout c

/-- 30_encoding.md R75: the canonical records are one per calibration, each canonical and each decoding to its calibration. -/
def Obligations.CanonicalRecordsAreTheCalibrations : Prop :=
  (∀ c : Calibration, canonical (encodeRecord c) = true ∧ recordFields (encodeRecord c) = c) ∧
  (∀ b : List Byte, canonical b = true → encodeRecord (recordFields b) = b)

/-! ### Lifecycle and reset -/

/-- 10_state.md R27: the values after reset and after INIT. -/
def Obligations.ResetAndInitLeaveTheDefaults : Prop :=
  (State.reset.cal = ⟨5000, 5000, 15000, 9000, 21000, 200⟩ ∧ State.reset.pos = 15000 ∧ State.reset.enableOutput = false) ∧
  (∀ s : State, ∃ t, exec .init s = .next t ∧
    t.cal = ⟨5000, 5000, 15000, 9000, 21000, 200⟩ ∧ t.pos = 15000 ∧ t.enableOutput = false)

/-- 40_lifecycle.md R90: INIT overwrites the eight fields, whatever they held, and nothing else. -/
def Obligations.InitOverwritesEveryField : Prop :=
  ∀ s : State, exec .init s = .next
    { s with cal := ⟨5000, 5000, 15000, 9000, 21000, 200⟩, pos := 15000, enableOutput := false, response := some ⟨.ok, 0⟩ }

/-- 70_reset_and_hazards.md R190, R191: the reset input, from any prior state, leaves what INIT leaves, but for the response, and
accepts no frame. The rules say so of the state when reset ends; where the next input is again the reset (it is held asserted), that
the fields already hold the defaults is the model's choice (DESIGN CHOICE, log 15). -/
def Obligations.ResetInputAgreesWithInit : Prop :=
  ∀ (s : State) (rest : List Input), s.inputs = .reset :: rest →
    step s = .next { s with inputs := rest, cal := ⟨5000, 5000, 15000, 9000, 21000, 200⟩, pos := 15000, enableOutput := false, response := none } ∧
    ∃ t, exec .init (s.setInputs rest) = .next t ∧ step s = .next t.noResponse

/-- 40_lifecycle.md R91, R92: the flag is set, cleared, and no other field is touched. -/
def Obligations.EnableAndDisableWriteOnlyTheFlag : Prop :=
  ∀ s : State,
    exec .enable s = .next { s with enableOutput := true, response := some ⟨.ok, 0⟩ } ∧
    exec .disable s = .next { s with enableOutput := false, response := some ⟨.ok, 0⟩ }

/-- 40_lifecycle.md R93. -/
def Obligations.GetEnableReadsTheFlag : Prop :=
  ∀ s : State, exec .getEnable s = .next { s with response := some ⟨.ok, if s.enableOutput = true then 1 else 0⟩ }

/-! ### The position mapper -/

/-- 42_mapper.md R131: what a binary32 bit pattern denotes, case by case, over the rationals. -/
def Obligations.Binary32PatternsDenoteTheirValues : Prop :=
  ∀ d : Word,
    ((d.extractLsb 30 23).toNat = 0 → ∃ n, f32 d = some (.fin n) ∧
      realOf n = (if d.getLsbD 31 then -1 else 1) * ((d.extractLsb 22 0).toNat : ℚ) * (2 : ℚ) ^ (-149 : ℤ)) ∧
    (1 ≤ (d.extractLsb 30 23).toNat → (d.extractLsb 30 23).toNat ≤ 254 → ∃ n, f32 d = some (.fin n) ∧
      realOf n = (if d.getLsbD 31 then -1 else 1) * (1 + ((d.extractLsb 22 0).toNat : ℚ) * (2 : ℚ) ^ (-23 : ℤ)) *
        (2 : ℚ) ^ (((d.extractLsb 30 23).toNat : ℤ) - 127)) ∧
    ((d.extractLsb 30 23).toNat = 255 → (d.extractLsb 22 0).toNat = 0 →
      f32 d = some (if d.getLsbD 31 then .negInf else .posInf)) ∧
    ((d.extractLsb 30 23).toNat = 255 → (d.extractLsb 22 0).toNat ≠ 0 → f32 d = none)

/-- 42_mapper.md R132, R143: NaN of any kind and input 0 of either sign select `gain_neg` and map to the clamped zero offset,
whatever the gains and `MAP_ARITH`. -/
def Obligations.NanAndZeroMapToTheClampedZero : Prop :=
  ∀ (d : Word) (s : State), (f32 d = none ∨ f32 d = some (.fin 0)) →
    selectGain s.cal (setInput d) = s.cal.gainNeg ∧
    (s.cal.min ≤ s.cal.max → exec (.set d) s = .next { s with pos := clampedZero s.cal, response := some ⟨.ok, 0⟩ })

/-- 42_mapper.md R133: where SET draws nothing, a positive input does not see `gain_neg`, any other does not see `gain_pos`. -/
def Obligations.SetUsesTheGainOfTheSign : Prop :=
  ∀ (d : Word) (s t : State) (g : Half), setDraws d s = false → exec (.set d) s = .next t →
    ((setInput d).isPositive = true →
      exec (.set d) { s with cal := { s.cal with gainNeg := g } } = .next { t with cal := { t.cal with gainNeg := g } }) ∧
    ((setInput d).isPositive = false →
      exec (.set d) { s with cal := { s.cal with gainPos := g } } = .next { t with cal := { t.cal with gainPos := g } })

/-- 42_mapper.md R134: the rounding gives a value of at most `p` significant bits, no other such value is nearer, and where
another is as near the result is the one whose last bit is even. -/
def Obligations.RoundingIsToNearestTiesToEven : Prop :=
  ∀ p n : Nat, 0 < p →
    Representable p (roundNearestEven p n 1) ∧
    ∀ m, Representable p m →
      |(n : ℤ) - roundNearestEven p n 1| ≤ |(n : ℤ) - m| ∧
      (m ≠ roundNearestEven p n 1 → |(n : ℤ) - roundNearestEven p n 1| = |(n : ℤ) - m| →
        ∃ q, roundNearestEven p n 1 = 2 * q * 2 ^ ulpShift p n)

/-- 42_mapper.md R134, 90_conflicts.md C6: what each `MAP_ARITH` rounds to infinity, and to which sign; what is not rounded to
infinity is rounded to nearest, its sign kept. -/
def Obligations.RoundingOverflowsAtTheThreshold : Prop :=
  ∀ y : Int,
    ((roundUnder .binary32 y = .posInf ↔ (2 : ℚ) ^ 128 - 2 ^ 103 ≤ realOf y) ∧
     (roundUnder .binary32 y = .negInf ↔ realOf y ≤ -((2 : ℚ) ^ 128 - 2 ^ 103)) ∧
     (∀ n, roundUnder .binary32 y = .fin n → n = y.sign * roundNearestEven 24 y.natAbs 1)) ∧
    ((roundUnder .binary64 y = .posInf ↔ (2 : ℚ) ^ 1024 - 2 ^ 970 ≤ realOf y) ∧
     (roundUnder .binary64 y = .negInf ↔ realOf y ≤ -((2 : ℚ) ^ 1024 - 2 ^ 970)) ∧
     (∀ n, roundUnder .binary64 y = .fin n → n = y.sign * roundNearestEven 53 y.natAbs 1)) ∧
    roundUnder .exact y = .fin y

/-- 42_mapper.md R130, R134 to R136 over the rationals: with the clamp in order, SET of a finite input stores the integer part
of the clamped sum; a product that overflowed stores the limit of its sign. -/
def Obligations.SetMatchesRealArithmetic : Prop :=
  ∀ (d : Word) (s : State) (x : Int), f32 d = some (.fin x) → s.cal.min ≤ s.cal.max →
    ∃ p : Half, exec (.set d) s = .next { s with pos := p, response := some ⟨.ok, 0⟩ } ∧
      (∀ m v : Int,
        roundUnder s.params.mapArith (x * ((if 0 < x then s.cal.gainPos else s.cal.gainNeg).toNat : ℤ)) = .fin m →
        roundUnder s.params.mapArith ((s.cal.zero.toNat : ℤ) * 2 ^ 149 + m) = .fin v →
        (p.toNat : ℤ) = ⌊max (realOfHalf s.cal.min) (min (realOfHalf s.cal.max) (realOf v))⌋) ∧
      (roundUnder s.params.mapArith (x * ((if 0 < x then s.cal.gainPos else s.cal.gainNeg).toNat : ℤ)) = .posInf →
        p = s.cal.max) ∧
      (roundUnder s.params.mapArith (x * ((if 0 < x then s.cal.gainPos else s.cal.gainNeg).toNat : ℤ)) = .negInf →
        p = s.cal.min)

/-- 42_mapper.md R139: SET answers OK on every input in every state and writes `pos` alone; the draws apart, it writes the value
of the mapper and draws nothing. -/
def Obligations.SetAlwaysCompletesAndWritesOnlyPos : Prop :=
  ∀ (d : Word) (s : State), ∃ p n, exec (.set d) s = .next { s with pos := p, draws := n, response := some ⟨.ok, 0⟩ } ∧
    (setDraws d s = false →
      n = s.draws ∧ p = mapPosition s.params s.cal (setInput d) (selectGain s.cal (setInput d)))

/-- 42_mapper.md R138: an infinite input with a zero selected gain leaves some 16-bit `pos`, nothing said of which, and answers OK. -/
def Obligations.InfiniteInputWithZeroGainDraws : Prop :=
  ∀ (d : Word) (s : State),
    (f32 d = some .posInf ∧ s.cal.gainPos = 0) ∨ (f32 d = some .negInf ∧ s.cal.gainNeg = 0) →
    ∃ p, exec (.set d) s = .next { s with pos := p, draws := s.draws + 1, response := some ⟨.ok, 0⟩ }

/-- 42_mapper.md R135: SET while `min > max`, for each value of `INVERTED_CLAMP`. -/
def Obligations.InvertedClampFollowsItsParameter : Prop :=
  ∀ (d : Word) (s : State), s.cal.max < s.cal.min →
    ¬((setInput d).isInfinite = true ∧ selectGain s.cal (setInput d) = 0) →
    (s.params.invertedClamp = .draw →
      ∃ p, exec (.set d) s = .next { s with pos := p, draws := s.draws + 1, response := some ⟨.ok, 0⟩ }) ∧
    (s.params.invertedClamp = .minFirst →
      (¬ Ext.le (.fin (unitsOf s.cal.min)) (unclamped d s) →
        exec (.set d) s = .next { s with pos := s.cal.min, response := some ⟨.ok, 0⟩ }) ∧
      (Ext.le (.fin (unitsOf s.cal.min)) (unclamped d s) →
        exec (.set d) s = .next { s with pos := s.cal.max, response := some ⟨.ok, 0⟩ })) ∧
    (s.params.invertedClamp = .maxFirst →
      (¬ Ext.le (unclamped d s) (.fin (unitsOf s.cal.max)) →
        exec (.set d) s = .next { s with pos := s.cal.max, response := some ⟨.ok, 0⟩ }) ∧
      (Ext.le (unclamped d s) (.fin (unitsOf s.cal.max)) →
        exec (.set d) s = .next { s with pos := s.cal.min, response := some ⟨.ok, 0⟩ }))

/-- 42_mapper.md R137: with the clamp in order and the selected gain not 0, +∞ stores `max` and -∞ stores `min`. -/
def Obligations.InfinitiesStoreTheLimits : Prop :=
  ∀ s : State, s.cal.min ≤ s.cal.max →
    (s.cal.gainPos ≠ 0 → exec (.set 0x7F800000) s = .next { s with pos := s.cal.max, response := some ⟨.ok, 0⟩ }) ∧
    (s.cal.gainNeg ≠ 0 → exec (.set 0xFF800000) s = .next { s with pos := s.cal.min, response := some ⟨.ok, 0⟩ })

/-- 42_mapper.md R144, the range: with the clamp in order and R138 excluded, `min <= pos <= max` under every `MAP_ARITH`. -/
def Obligations.SetStaysBetweenTheLimits : Prop :=
  ∀ (d : Word) (s : State), s.cal.min ≤ s.cal.max →
    ¬((setInput d).isInfinite = true ∧ selectGain s.cal (setInput d) = 0) →
    ∃ p, exec (.set d) s = .next { s with pos := p, response := some ⟨.ok, 0⟩ } ∧ s.cal.min ≤ p ∧ p ≤ s.cal.max

/-- 42_mapper.md R144, monotonicity: a greater input never stores a smaller pulse width, under every `MAP_ARITH`, across the
change of gain at 0. -/
def Obligations.SetIsMonotone : Prop :=
  ∀ (d e : Word) (x y : Ext) (s t u : State), f32 d = some x → f32 e = some y → Ext.le x y →
    s.cal.min ≤ s.cal.max →
    ¬(x.isInfinite = true ∧ selectGain s.cal x = 0) → ¬(y.isInfinite = true ∧ selectGain s.cal y = 0) →
    exec (.set d) s = .next t → exec (.set e) s = .next u → t.pos ≤ u.pos

/-- 42_mapper.md R145: inputs whose product and sum are binary32 values map alike under every `MAP_ARITH`; 0, ±0.25, ±0.5, ±0.75,
±1 and ±2 are such inputs for every 16-bit gain and zero; the source's values hold exactly. -/
def Obligations.ExactInputsMapAlikeUnderEveryArithmetic : Prop :=
  (∀ (d : Word) (s : State) (x : Int), f32 d = some (.fin x) → setDraws d s = false →
    binary32Value (x * ((selectGain s.cal (.fin x)).toNat : ℤ)) →
    binary32Value (unitsOf s.cal.zero + x * ((selectGain s.cal (.fin x)).toNat : ℤ)) →
    ∃ p, ∀ A, exec (.set d) (withArith s A) = .next { withArith s A with pos := p, response := some ⟨.ok, 0⟩ }) ∧
  (∀ d ∈ ([0x00000000, 0x80000000, 0x3E800000, 0xBE800000, 0x3F000000, 0xBF000000, 0x3F400000, 0xBF400000,
      0x3F800000, 0xBF800000, 0x40000000, 0xC0000000] : List Word),
    ∃ x, f32 d = some (.fin x) ∧ ∀ g z : Half,
      binary32Value (x * (g.toNat : ℤ)) ∧ binary32Value (unitsOf z + x * (g.toNat : ℤ))) ∧
  (∀ A, ∀ c ∈ ([(0x00000000, 15000), (0x3F800000, 20000), (0x3F000000, 17500), (0xBF800000, 10000), (0x40000000, 21000),
      (0xC0000000, 9000)] : List (Word × Half)),
    exec (.set c.1) (withArith State.reset A) =
      .next { withArith State.reset A with pos := c.2, response := some ⟨.ok, 0⟩ }) ∧
  (∀ A, exec (.set 0x7FC00000) (withArith { State.reset with cal := ⟨1000, 1000, 13000, 10000, 20000, 200⟩ } A) =
    .next { withArith { State.reset with cal := ⟨1000, 1000, 13000, 10000, 20000, 200⟩ } A with
      pos := 13000, response := some ⟨.ok, 0⟩ })

/-- 42_mapper.md R140: any 16-bit value, unclamped. -/
def Obligations.SetRawStoresTheOperand : Prop :=
  ∀ (w : Half) (s : State), exec (.setRaw w) s = .next { s with pos := w, response := some ⟨.ok, 0⟩ }

/-- 42_mapper.md R141. -/
def Obligations.GetPwmReadsPos : Prop :=
  ∀ s : State, exec .getPwm s = .next { s with response := some ⟨.ok, s.pos.setWidth 32⟩ }

/-- 42_mapper.md R142: the period times 1000, no overflow. -/
def Obligations.GetUpdatePeriodScales : Prop :=
  ∀ s : State, ∃ v : Word, exec .getUpdatePeriod s = .next { s with response := some ⟨.ok, v⟩ } ∧
    v.toNat = s.cal.updatePeriod.toNat * 1000

/-! ### The calibration codec -/

/-- 41_codec.md R105 with R102: a canonical admitted window is taken, field by field, and nothing else is written. -/
def Obligations.LoadTakesACanonicalRecord : Prop :=
  ∀ (a : Word) (s : State), admittedAt s.params.admitted a → canonicalAt s.buf a.toNat →
    exec (.load a) s = .next { s with cal := calibrationAt s.buf a.toNat, response := some ⟨.ok, a + 18⟩ }

/-- 41_codec.md R106 with R102 and R110: an admitted window with a wrong header or tag is answered `(FAIL, 0)`; some six fields
are left, nothing said of which, and nothing else of the block is written. -/
def Obligations.LoadRejectsAWrongTag : Prop :=
  ∀ (a : Word) (s : State), admittedAt s.params.admitted a → ¬ canonicalAt s.buf a.toNat →
    s.params.noncanonicalLoad = .reject →
    ∃ c, exec (.load a) s = .next { s with cal := c, draws := s.draws + 6, response := some ⟨.fail, 0⟩ }

/-- 41_codec.md R109: under `any` a window that is not canonical is answered FAIL or OK, some six fields left either way; a
canonical window behaves the same under both values. -/
def Obligations.LenientLoadFailsOrSucceeds : Prop :=
  ∀ (a : Word) (s : State), admittedAt s.params.admitted a →
    (¬ canonicalAt s.buf a.toNat → s.params.noncanonicalLoad = .any →
      ∃ c n r, exec (.load a) s = .next { s with cal := c, draws := n, response := some r } ∧
        (r = ⟨.fail, 0⟩ ∨ r = ⟨.ok, a + 18⟩)) ∧
    (canonicalAt s.buf a.toNat → ∀ m,
      exec (.load a) { s with params := { s.params with noncanonicalLoad := m } } =
        .next { s with
          params := { s.params with noncanonicalLoad := m }
          cal := calibrationAt s.buf a.toNat
          response := some ⟨.ok, a + 18⟩ })

/-- 20_memory.md R44, 60_exceptions.md R172: LOAD and SAVE fault on exactly the windows that are not admitted, with the start
address, and a fault leaves no state behind. -/
def Obligations.InadmissibleWindowsFault : Prop :=
  ∀ (a : Word) (s : State),
    (exec (.load a) s = .fault (.bufferWindow a) ↔ ¬ admittedAt s.params.admitted a) ∧
    (exec (.save a) s = .fault (.bufferWindow a) ↔ ¬ admittedAt s.params.admitted a)

/-- 41_codec.md R107: SAVE writes the 18 bytes of the record, no other byte and no field of the block. -/
def Obligations.SaveWritesTheRecordAndNothingElse : Prop :=
  ∀ (a : Word) (s : State), admittedAt s.params.admitted a →
    ∃ m, exec (.save a) s = .next { s with buf := m, response := some ⟨.ok, a + 18⟩ } ∧
      (∀ i, i < 18 → Memory.read m (a.toNat + i) = (recordLayout s.cal).getD i 0) ∧
      (∀ b, b < a.toNat ∨ a.toNat + 18 ≤ b → Memory.read m b = Memory.read s.buf b)

/-- 41_codec.md R108: a LOAD of the window a SAVE wrote, with no write to it between, restores every calibration field, from any
state of the block. -/
def Obligations.LoadOfASaveRestoresTheCalibration : Prop :=
  ∀ (a : Word) (s : State), admittedAt s.params.admitted a →
    ∃ t, exec (.save a) s = .next t ∧
      ∀ u : State, u.params = s.params →
        (∀ i, i < 18 → Memory.read u.buf (a.toNat + i) = Memory.read t.buf (a.toNat + i)) →
        exec (.load a) u = .next { u with cal := s.cal, response := some ⟨.ok, a + 18⟩ }

/-- 41_codec.md R108, the converse: a canonical window loaded, then saved to an admitted window, is written back byte for byte. -/
def Obligations.SaveOfALoadRewritesTheRecord : Prop :=
  ∀ (a b : Word) (s : State), admittedAt s.params.admitted a → admittedAt s.params.admitted b →
    canonicalAt s.buf a.toNat →
    ∃ t u, exec (.load a) s = .next t ∧ exec (.save b) t = .next u ∧
      ∀ i, i < 18 → Memory.read u.buf (b.toNat + i) = Memory.read s.buf (a.toNat + i)

/-- 41_codec.md R103: the continuation wraps only at the top window. -/
def Obligations.ContinuationWrapsOnlyAtTheTop : Prop :=
  ∀ a : Word, (continuation a).toNat = (a.toNat + 18) % 2 ^ 32 ∧
    (a.toNat + 17 ≤ 2 ^ 32 - 1 → (continuation a = 0 ↔ a = 0xFFFFFFEE))

/-! ### Calibration fields -/

/-- 43_field_access.md R160: each field, zero-extended; nothing is written. -/
def Obligations.RdcalReadsTheField : Prop :=
  ∀ s : State,
    exec (.rdcal .gainPos) s = .next { s with response := some ⟨.ok, s.cal.gainPos.setWidth 32⟩ } ∧
    exec (.rdcal .gainNeg) s = .next { s with response := some ⟨.ok, s.cal.gainNeg.setWidth 32⟩ } ∧
    exec (.rdcal .zero) s = .next { s with response := some ⟨.ok, s.cal.zero.setWidth 32⟩ } ∧
    exec (.rdcal .min) s = .next { s with response := some ⟨.ok, s.cal.min.setWidth 32⟩ } ∧
    exec (.rdcal .max) s = .next { s with response := some ⟨.ok, s.cal.max.setWidth 32⟩ } ∧
    exec (.rdcal .updatePeriod) s = .next { s with response := some ⟨.ok, s.cal.updatePeriod.setWidth 32⟩ }

/-- 43_field_access.md R161: exactly the named field is written, unchecked. -/
def Obligations.WrcalWritesTheField : Prop :=
  ∀ (w : Half) (s : State),
    exec (.wrcal .gainPos w) s = .next { s with cal := { s.cal with gainPos := w }, response := some ⟨.ok, 0⟩ } ∧
    exec (.wrcal .gainNeg w) s = .next { s with cal := { s.cal with gainNeg := w }, response := some ⟨.ok, 0⟩ } ∧
    exec (.wrcal .zero w) s = .next { s with cal := { s.cal with zero := w }, response := some ⟨.ok, 0⟩ } ∧
    exec (.wrcal .min w) s = .next { s with cal := { s.cal with min := w }, response := some ⟨.ok, 0⟩ } ∧
    exec (.wrcal .max w) s = .next { s with cal := { s.cal with max := w }, response := some ⟨.ok, 0⟩ } ∧
    exec (.wrcal .updatePeriod w) s =
      .next { s with cal := { s.cal with updatePeriod := w.extractLsb 7 0 }, response := some ⟨.ok, 0⟩ }

/-- 43_field_access.md R160 and R161 together: what WRCAL wrote RDCAL reads, and every other field reads as before. -/
def Obligations.RdcalReadsWhatWrcalWrote : Prop :=
  ∀ (k : CalField) (w : Half) (s : State), (Instr.wrcal k w).wellFormed = true →
    ∃ t, exec (.wrcal k w) s = .next t ∧
      exec (.rdcal k) t = .next { t with response := some ⟨.ok, w.setWidth 32⟩ } ∧
      ∀ j, j ≠ k → t.cal.field j = s.cal.field j

/-- 70_reset_and_hazards.md R203: the order of two WRCALs that keeps `min <= max` all the way. -/
def Obligations.ClampLimitsMoveWithoutInverting : Prop :=
  ∀ (lo hi : Half) (s : State), s.cal.min ≤ s.cal.max → lo ≤ hi →
    (s.cal.max < lo ∨ (lo ≤ s.cal.max ∧ s.cal.min ≤ hi) →
      ∃ t u, exec (.wrcal .max hi) s = .next t ∧ exec (.wrcal .min lo) t = .next u ∧
        t.cal.min ≤ t.cal.max ∧ u.cal.min = lo ∧ u.cal.max = hi) ∧
    (hi < s.cal.min ∨ (lo ≤ s.cal.max ∧ s.cal.min ≤ hi) →
      ∃ t u, exec (.wrcal .min lo) s = .next t ∧ exec (.wrcal .max hi) t = .next u ∧
        t.cal.min ≤ t.cal.max ∧ u.cal.min = lo ∧ u.cal.max = hi)

/-! ### The whole machine -/

/-- 30_encoding.md R67, 20_memory.md R49: a step on a frame that decodes takes it off the port and is `exec` of the command. -/
def Obligations.StepRunsTheDecodedCommand : Prop :=
  ∀ (s : State) (f : Frame) (rest : List Input) (i : Instr), s.inputs = .frame f :: rest → decode f = .ok i →
    step s = exec i (s.setInputs rest)

/-- The invariant holds after reset. The empty buffer is the model's choice (log 2). -/
def Obligations.ResetMeetsTheInvariant : Prop := State.reset.Inv

/-- Every step keeps the buffer in its canonical form, whatever the input. -/
def Obligations.StepKeepsTheInvariant : Prop := ∀ s t : State, s.Inv → step s = .next t → t.Inv

/-- 10_state.md R23: the calibration is written only by INIT, LOAD and WRCAL. -/
def Obligations.OnlyInitLoadAndWrcalWriteTheCalibration : Prop :=
  ∀ (i : Instr) (s t : State), exec i s = .next t → t.cal ≠ s.cal →
    i = .init ∨ (∃ a, i = .load a) ∨ ∃ k w, i = .wrcal k w

/-- 10_state.md R24: `pos` is written only by INIT, SET and SET_RAW. -/
def Obligations.OnlyInitSetAndSetRawWritePos : Prop :=
  ∀ (i : Instr) (s t : State), exec i s = .next t → t.pos ≠ s.pos →
    i = .init ∨ (∃ d, i = .set d) ∨ ∃ w, i = .setRaw w

/-- 10_state.md R25: `enable_output` is written only by INIT and DISABLE (false) and ENABLE (true). -/
def Obligations.OnlyInitEnableAndDisableWriteTheFlag : Prop :=
  ∀ (i : Instr) (s t : State), exec i s = .next t → t.enableOutput ≠ s.enableOutput →
    (i = .init ∧ t.enableOutput = false) ∨ (i = .enable ∧ t.enableOutput = true) ∨ (i = .disable ∧ t.enableOutput = false)

/-- 20_memory.md R47, 41_codec.md R100: the only writes of the block are SAVE's, inside its window. -/
def Obligations.OnlySaveWritesTheBufferAndOnlyItsWindow : Prop :=
  ∀ (i : Instr) (s t : State) (b : Nat), exec i s = .next t → Memory.read t.buf b ≠ Memory.read s.buf b →
    ∃ a, i = .save a ∧ a.toNat ≤ b ∧ b ≤ a.toNat + 17

/-- 60_exceptions.md R170, R171, R174: a step stops only on a LOAD or SAVE of a window that is not admitted, and names its start
address; it never refuses. -/
def Obligations.OnlyInadmissibleWindowsStop : Prop :=
  ∀ s : State,
    (∀ r, step s = .fault r ↔ ∃ f rest a, s.inputs = .frame f :: rest ∧
      (decode f = .ok (.load a) ∨ decode f = .ok (.save a)) ∧ ¬ admittedAt s.params.admitted a ∧ r = .bufferWindow a) ∧
    (∀ r, step s ≠ .refused r)

/-- 60_exceptions.md R172, 70_reset_and_hazards.md R204: a run whose frames name only admitted windows never stops. -/
def Obligations.RunsWithAdmittedWindowsNeverStop : Prop :=
  ∀ (k : Nat) (s : State), s.safeInputs = true → ∃ t : State, Host.Core.run Sys2Proof.core k s = .next t

/-- 10_state.md R25 over runs: two runs that differ only in `enable_output`, in which no GET_ENABLE is presented, differ at every
later point in nothing else: the flag gates nothing. The draws of the two runs are matched: the states agree on the counter of free
values, and equal counters draw equal values, which is the model's choice (DESIGN CHOICE, log 5; unsafe to take for more). Where a
command draws (60_exceptions.md R173) the conclusion says that the flag does not decide whether and where a value is drawn, not
that two blocks draw the same one. -/
def Obligations.TheFlagGatesNothing : Prop :=
  ∀ (k : Nat) (s t : State), sameButFlag s t → s.inputs.all (fun x => !x.readsFlag) = true →
    outcomesSameButFlag (Host.Core.run Sys2Proof.core k s) (Host.Core.run Sys2Proof.core k t)

/-- 30_encoding.md R66, 20_memory.md R49: a step that does not fault takes at most one input, answers a frame with one response and
anything else with none. -/
def Obligations.EveryFrameGetsOneResponse : Prop :=
  ∀ s t : State, step s = .next t →
    t.inputs = s.inputs.tail ∧ (t.response.isSome = true ↔ ∃ f rest, s.inputs = .frame f :: rest)

/-- No step changes a parameter. That the parameters listed in 00_scope.md R8 stand in the state, and that no step changes them, is
the model's choice (DESIGN CHOICE, log 6); R8 lists them and says neither. -/
def Obligations.ParametersNeverChange : Prop := ∀ s t : State, step s = .next t → t.params = s.params

/-- The storage collaborator's write between commands (20_memory.md R48, R52): the byte is stored, every other byte, field and
parameter is as before. The input is the model's own (log 3). -/
def Obligations.StorageWritesOneByte : Prop :=
  ∀ (s : State) (a : Word) (v : Byte) (rest : List Input), s.inputs = .store a v :: rest →
    ∃ m, step s = .next { s with inputs := rest, buf := m, response := none } ∧
      Memory.read m a.toNat = v ∧ ∀ b, b ≠ a.toNat → Memory.read m b = Memory.read s.buf b

/-- With nothing presented the block waits: the model's choice (log 3). -/
def Obligations.NothingPresentedChangesNothing : Prop :=
  ∀ s : State, s.inputs = [] → step s = .next { s with response := none }

/-- 20_memory.md R50: the three outputs, and that the read commands answer the same values. -/
def Obligations.ObserverPortPresentsTheFields : Prop :=
  ∀ s : State, s.observe.width = s.pos ∧ s.observe.period.toNat = s.cal.updatePeriod.toNat * 1000 ∧
    s.observe.enable = s.enableOutput ∧
    exec .getUpdatePeriod s = .next { s with response := some ⟨.ok, s.observe.period⟩ }

/-- What a sample of the three outputs of the observer port can be while a command is in progress, by `observableDuring` (DEDUCED
from 20_memory.md R51, log 11): for any command but INIT, all three as before it or all three as after it; during INIT a mixture
can be seen. LOAD, which R51 and 70_reset_and_hazards.md R206 name beside INIT as seen part-done, writes six fields, of which the port
shows only `update_period`; so its sample is the one before or the one after, while its other five fields may be written or not:
this says nothing of those. -/
def Obligations.ObserverSamplesMixOnlyDuringInit : Prop :=
  (∀ (i : Instr) (s t : State) (o : Observation), i ≠ .init → exec i s = .next t → observableDuring s t o = true →
    o = s.observe ∨ o = t.observe) ∧
  (∃ (s t : State) (o : Observation), exec .init s = .next t ∧ observableDuring s t o = true ∧
    o ≠ s.observe ∧ o ≠ t.observe)

/-- 10_state.md R31, 60_exceptions.md R183, on the model's `System`: a step of one instance leaves the state of every other as it was,
and what it does depends on no other's state. The system, one buffer and one counter of free values shared by its instances, is the
model's choice (DESIGN CHOICE, log 9): a step of one instance can change the buffer and advance the counter that another meets next.
The two systems compared have equal buffers and equal counters, and equal counters draw equal values (DESIGN CHOICE, log 5; unsafe
to take for more), so where the step draws it says that the draw is at the same place, not that two blocks draw the same value. -/
def Obligations.InstancesDoNotInterfere : Prop :=
  (∀ (S T : System) (k j : Nat), System.step S k = .next T → j ≠ k → T.instances[j]? = S.instances[j]?) ∧
  (∀ (S S' T : System) (k : Nat), S.buf = S'.buf → S.draws = S'.draws → S.instances[k]? = S'.instances[k]? →
    System.step S k = .next T →
    ∃ T', System.step S' k = .next T' ∧ T'.buf = T.buf ∧ T'.draws = T.draws ∧ T'.instances[k]? = T.instances[k]?)
end

