-- ==== Sys2Proof/Laws/Arithmetic.lean ====
section
/-! SUPPORT. The binary64 overflow bound as the spec writes it, and the window predicate opened once. -/

namespace Sys2Proof.Machine

theorem overflow64_eq : overflow64 = (2 ^ 1024 - 2 ^ 970) * 2 ^ 149 := by decide +kernel

/-- The window predicate of 20_memory.md R44, clause by clause. -/
theorem windowAdmitted_iff (rs : List Region) (a : Word) :
    windowAdmitted rs a = true ↔ a.toNat + 17 ≤ 0xFFFFFFFF ∧ ∀ i, i ≤ 17 → bufAdmit rs (a.toNat + i) = true := by
  simp only [windowAdmitted, recordLength, Bool.and_eq_true, decide_eq_true_eq, List.all_eq_true, List.mem_range]
  exact and_congr_right fun _ => forall_congr' fun i => by rw [Nat.lt_succ_iff]

/-- The record is 18 bytes long. -/
@[simp] theorem encodeRecord_length (c : Calibration) : (encodeRecord c).length = recordLength := by
  simp [encodeRecord, encodeField, recordLength]

end Sys2Proof.Machine
end

