-- ==== Sys2Proof/Laws/Decode.lean ====
section
/-! SUPPORT. The fields of a frame built from fields, the SEL numbering both ways, and what `decodeIf` answers. -/

namespace Sys2Proof

@[simp] theorem Frame.ofFields_opc (o s : BitVec 8) (m : Half) (d : Word) : Frame.opc (Frame.ofFields o s m d) = o := by
  ext i hi
  simp only [Frame.opc, Frame.ofFields, BitVec.getElem_extractLsb', BitVec.getLsbD_append]
  grind

@[simp] theorem Frame.ofFields_sel (o s : BitVec 8) (m : Half) (d : Word) : Frame.sel (Frame.ofFields o s m d) = s := by
  ext i hi
  simp only [Frame.sel, Frame.ofFields, BitVec.getElem_extractLsb', BitVec.getLsbD_append]
  grind

@[simp] theorem Frame.ofFields_imm16 (o s : BitVec 8) (m : Half) (d : Word) :
    Frame.imm16 (Frame.ofFields o s m d) = m := by
  ext i hi
  simp only [Frame.imm16, Frame.ofFields, BitVec.getElem_extractLsb', BitVec.getLsbD_append]
  grind

@[simp] theorem Frame.ofFields_d32 (o s : BitVec 8) (m : Half) (d : Word) : Frame.d32 (Frame.ofFields o s m d) = d := by
  ext i hi
  simp only [Frame.d32, Frame.ofFields, BitVec.getElem_extractLsb', BitVec.getLsbD_append]
  grind

/-- A frame is its four fields. -/
theorem Frame.ofFields_fields (f : Frame) :
    Frame.ofFields (Frame.opc f) (Frame.sel f) (Frame.imm16 f) (Frame.d32 f) = f := by
  ext i hi
  simp only [Frame.opc, Frame.sel, Frame.imm16, Frame.d32, Frame.ofFields]
  grind

@[simp] theorem CalField.ofSel_sel (k : CalField) : CalField.ofSel k.sel = some k := by cases k <;> rfl

/-- The SEL numbering is one to one. -/
theorem CalField.sel_of_ofSel {v : BitVec 8} {k : CalField} (h : CalField.ofSel v = some k) : k.sel = v := by
  unfold CalField.ofSel at h
  grind [CalField.sel]

@[simp] theorem decodeIf_ok {b : Bool} {i j : Instr} : decodeIf b i = .ok j ↔ b = true ∧ j = i := by
  cases b <;> simp [decodeIf, eq_comm]

theorem ite_eq_cases {α : Type} {p : Prop} [Decidable p] {a b c : α} (h : (if p then a else b) = c) :
    (p ∧ a = c) ∨ (¬p ∧ b = c) := by
  by_cases hp : p
  · rw [if_pos hp] at h; exact .inl ⟨hp, h⟩
  · rw [if_neg hp] at h; exact .inr ⟨hp, h⟩

theorem decodeRdcal_ok {f : Frame} {i : Instr} (h : decodeRdcal f = .ok i) :
    ∃ k, f.sel = k.sel ∧ f.imm16 = 0 ∧ f.d32 = 0 ∧ i = .rdcal k := by
  unfold decodeRdcal at h
  split at h
  · cases h
  · rename_i k hk
    simp only [decodeIf_ok, Bool.and_eq_true, beq_iff_eq] at h
    exact ⟨k, (CalField.sel_of_ofSel hk).symm, h.1.1, h.1.2, h.2⟩

theorem decodeWrcal_ok {f : Frame} {i : Instr} (h : decodeWrcal f = .ok i) :
    ∃ k, f.sel = k.sel ∧ k.fits f.imm16 = true ∧ f.d32 = 0 ∧ i = .wrcal k f.imm16 := by
  unfold decodeWrcal at h
  split at h
  · cases h
  · rename_i k hk
    obtain ⟨hf, h⟩ | ⟨-, h⟩ := ite_eq_cases h
    · simp only [decodeIf_ok, beq_iff_eq] at h
      exact ⟨k, (CalField.sel_of_ofSel hk).symm, hf, h.1, h.2⟩
    · cases h

/-- Everything the decoder can answer when it answers a command: the opcode, the reserved fields and the operands. -/
theorem decode_ok {f : Frame} {i : Instr} (h : decode f = .ok i) :
    (f.opc = 0x01 ∧ f.sel = 0 ∧ f.imm16 = 0 ∧ f.d32 = 0 ∧ i = .init) ∨
    (f.opc = 0x02 ∧ f.sel = 0 ∧ f.imm16 = 0 ∧ f.d32 = 0 ∧ i = .enable) ∨
    (f.opc = 0x03 ∧ f.sel = 0 ∧ f.imm16 = 0 ∧ f.d32 = 0 ∧ i = .disable) ∨
    (f.opc = 0x04 ∧ f.sel = 0 ∧ f.imm16 = 0 ∧ i = .set f.d32) ∨
    (f.opc = 0x05 ∧ f.sel = 0 ∧ f.d32 = 0 ∧ i = .setRaw f.imm16) ∨
    (f.opc = 0x06 ∧ f.sel = 0 ∧ f.imm16 = 0 ∧ f.d32 = 0 ∧ i = .getPwm) ∨
    (f.opc = 0x07 ∧ f.sel = 0 ∧ f.imm16 = 0 ∧ f.d32 = 0 ∧ i = .getUpdatePeriod) ∨
    (f.opc = 0x08 ∧ f.sel = 0 ∧ f.imm16 = 0 ∧ i = .load f.d32) ∨
    (f.opc = 0x09 ∧ f.sel = 0 ∧ f.imm16 = 0 ∧ i = .save f.d32) ∨
    (f.opc = 0x0A ∧ ∃ k, f.sel = k.sel ∧ f.imm16 = 0 ∧ f.d32 = 0 ∧ i = .rdcal k) ∨
    (f.opc = 0x0B ∧ ∃ k, f.sel = k.sel ∧ k.fits f.imm16 = true ∧ f.d32 = 0 ∧ i = .wrcal k f.imm16) ∨
    (f.opc = 0x0C ∧ f.sel = 0 ∧ f.imm16 = 0 ∧ f.d32 = 0 ∧ i = .getEnable) := by
  unfold decode at h
  obtain ⟨o, h⟩ | ⟨-, h⟩ := ite_eq_cases h
  · simp_all
  obtain ⟨o, h⟩ | ⟨-, h⟩ := ite_eq_cases h
  · simp_all
  obtain ⟨o, h⟩ | ⟨-, h⟩ := ite_eq_cases h
  · simp_all
  obtain ⟨o, h⟩ | ⟨-, h⟩ := ite_eq_cases h
  · simp_all
  obtain ⟨o, h⟩ | ⟨-, h⟩ := ite_eq_cases h
  · simp_all
  obtain ⟨o, h⟩ | ⟨-, h⟩ := ite_eq_cases h
  · simp_all
  obtain ⟨o, h⟩ | ⟨-, h⟩ := ite_eq_cases h
  · simp_all
  obtain ⟨o, h⟩ | ⟨-, h⟩ := ite_eq_cases h
  · simp_all
  obtain ⟨o, h⟩ | ⟨-, h⟩ := ite_eq_cases h
  · simp_all
  obtain ⟨o, h⟩ | ⟨-, h⟩ := ite_eq_cases h
  · simp only [o, decodeRdcal_ok h, true_and, true_or, or_true]
  obtain ⟨o, h⟩ | ⟨-, h⟩ := ite_eq_cases h
  · simp only [o, decodeWrcal_ok h, true_and, true_or, or_true]
  obtain ⟨o, h⟩ | ⟨-, h⟩ := ite_eq_cases h
  · simp_all
  cases h

end Sys2Proof
end

