-- ==== Sys2Proof/Laws/Memory.lean ====
section
/-! SUPPORT. The laws of the buffer: a read after a write, what a write leaves alone, and that every operation keeps the
canonical form. -/

namespace Sys2Proof.Machine

theorem Memory.read_erase (m : Memory) (a b : Nat) :
    Memory.read (Memory.erase m a) b = if b = a then unlistedByte else Memory.read m b := by
  induction m with
  | nil => simp [Memory.erase, Memory.read]
  | cons c m ih =>
    simp only [Memory.erase] at ih ⊢
    by_cases h : c.1 = a
    · by_cases hb : b = a <;> grind [Memory.read]
    · by_cases hb : b = a <;> grind [Memory.read]

theorem Memory.read_insert (m : Memory) (a : Nat) (v : Byte) (b : Nat) (h : ∀ c ∈ m, c.1 ≠ a) :
    Memory.read (Memory.insert a v m) b = if b = a then v else Memory.read m b := by
  induction m with
  | nil => grind [Memory.insert, Memory.read]
  | cons c m ih => grind [Memory.insert, Memory.read]

theorem Memory.mem_erase {m : Memory} {a : Nat} {c : Host.Cell} : c ∈ Memory.erase m a ↔ c ∈ m ∧ c.1 ≠ a := by
  simp [Memory.erase]

/-- The one law of reads and writes: the written address reads the written byte, every other reads as before. -/
@[simp] theorem Memory.read_write (m : Memory) (a : Nat) (v : Byte) (b : Nat) :
    Memory.read (Memory.write m a v) b = if b = a then v else Memory.read m b := by
  unfold Memory.write
  split
  · simp [Memory.read_erase, *]
  · rw [Memory.read_insert _ _ _ _ (fun c hc => (Memory.mem_erase.1 hc).2), Memory.read_erase]
    split <;> rfl

theorem Memory.mem_insert {m : Memory} {a : Nat} {v : Byte} {c : Host.Cell} :
    c ∈ Memory.insert a v m ↔ c = (a, v) ∨ c ∈ m := by
  induction m with
  | nil => simp [Memory.insert]
  | cons d m ih => grind [Memory.insert]

theorem Memory.erase_wf {m : Memory} (h : Memory.wf m) (a : Nat) : Memory.wf (Memory.erase m a) :=
  ⟨h.1.filter _, fun c hc => h.2 c (Memory.mem_erase.1 hc).1⟩

theorem Memory.insert_rising {m : Memory} {a : Nat} (v : Byte) (h : m.Pairwise (fun x y => x.1 < y.1))
    (ha : ∀ c ∈ m, c.1 ≠ a) : (Memory.insert a v m).Pairwise (fun x y => x.1 < y.1) := by
  induction m with
  | nil => simp [Memory.insert]
  | cons d m ih =>
    rw [List.pairwise_cons] at h
    have hd := ha d (by simp)
    simp only [Memory.insert]
    split
    · rename_i hlt
      refine List.pairwise_cons.2 ⟨?_, List.pairwise_cons.2 h⟩
      intro c hc
      rcases List.mem_cons.1 hc with rfl | hc
      · exact hlt
      · exact hlt.trans (h.1 c hc)
    · rename_i hge
      refine List.pairwise_cons.2 ⟨?_, ih h.2 (fun c hc => ha c (by simp [hc]))⟩
      intro c hc
      rcases Memory.mem_insert.1 hc with rfl | hc
      · simp only at hge ⊢; omega
      · exact h.1 c hc

/-- A write inside the address space keeps the canonical form. -/
theorem Memory.write_wf {m : Memory} (h : Memory.wf m) {a : Nat} (ha : a < 2 ^ 32) (v : Byte) :
    Memory.wf (Memory.write m a v) := by
  unfold Memory.write
  split
  · exact Memory.erase_wf h a
  · rename_i hv
    have he := Memory.erase_wf h a
    refine ⟨Memory.insert_rising v he.1 (fun c hc => (Memory.mem_erase.1 hc).2), fun c hc => ?_⟩
    rcases Memory.mem_insert.1 hc with rfl | hc
    · exact ⟨ha, hv⟩
    · exact he.2 c hc

/-- Writing bytes that end inside the address space keeps the canonical form. -/
theorem Memory.writeBytes_wf {m : Memory} (h : Memory.wf m) (a : Nat) (bs : List Byte) (ha : a + bs.length ≤ 2 ^ 32) :
    Memory.wf (Memory.writeBytes m a bs) := by
  induction bs generalizing m a with
  | nil => exact h
  | cons b bs ih =>
    simp only [List.length_cons] at ha
    exact ih (Memory.write_wf h (by omega) b) (a + 1) (by omega)

/-- A read outside the bytes written is as before. -/
theorem Memory.read_writeBytes_outside (m : Memory) (a : Nat) (bs : List Byte) (b : Nat)
    (h : b < a ∨ a + bs.length ≤ b) : Memory.read (Memory.writeBytes m a bs) b = Memory.read m b := by
  induction bs generalizing m a with
  | nil => rfl
  | cons x bs ih =>
    simp only [List.length_cons] at h
    rw [Memory.writeBytes, ih _ _ (by omega), Memory.read_write, if_neg (by omega)]

/-- A read inside the bytes written gives the byte written there. -/
theorem Memory.read_writeBytes_inside (m : Memory) (a : Nat) (bs : List Byte) (i : Nat) (h : i < bs.length) :
    Memory.read (Memory.writeBytes m a bs) (a + i) = bs.getD i 0 := by
  induction bs generalizing m a i with
  | nil => simp at h
  | cons x bs ih =>
    cases i with
    | zero => rw [Memory.writeBytes, Memory.read_writeBytes_outside _ _ _ _ (by omega)]; simp
    | succ i =>
      rw [Memory.writeBytes, show a + (i + 1) = a + 1 + i by omega, ih _ _ _ (by simpa using h)]
      simp

@[simp] theorem Memory.readBytes_length (m : Memory) (a n : Nat) : (Memory.readBytes m a n).length = n := by
  induction n generalizing a with
  | zero => rfl
  | succ n ih => simp [Memory.readBytes, ih]

/-- The `i`-th byte of a window read. -/
theorem Memory.readBytes_getD (m : Memory) (a n i : Nat) (h : i < n) (d : Byte) :
    (Memory.readBytes m a n).getD i d = Memory.read m (a + i) := by
  induction n generalizing a i with
  | zero => omega
  | succ n ih =>
    cases i with
    | zero => simp [Memory.readBytes]
    | succ i =>
      have hi := ih (a + 1) i (by omega)
      rw [show a + 1 + i = a + (i + 1) by omega] at hi
      simpa [Memory.readBytes] using hi

/-- Reading back the bytes just written. -/
theorem Memory.readBytes_writeBytes (m : Memory) (a : Nat) (bs : List Byte) :
    Memory.readBytes (Memory.writeBytes m a bs) a bs.length = bs := by
  refine List.ext_getElem (by simp) fun i h1 h2 => ?_
  have := Memory.readBytes_getD (Memory.writeBytes m a bs) a bs.length i h2 0
  rw [Memory.read_writeBytes_inside _ _ _ _ h2] at this
  simpa [List.getD_eq_getElem, h1, h2] using this

/-- Two buffers that read the same in the window give the same window. -/
theorem Memory.readBytes_congr {m m' : Memory} {a n : Nat}
    (h : ∀ i, i < n → Memory.read m (a + i) = Memory.read m' (a + i)) :
    Memory.readBytes m a n = Memory.readBytes m' a n := by
  induction n generalizing a with
  | zero => rfl
  | succ n ih =>
    simp only [Memory.readBytes]
    have h0 := h 0 (by omega)
    rw [Nat.add_zero] at h0
    rw [h0, ih (fun i hi => by have := h (i + 1) (by omega); rwa [show a + 1 + i = a + (i + 1) by omega])]

end Sys2Proof.Machine
end

