-- ==== Sys2Proof/Laws/State.lean ====
section
/-! SUPPORT. What each update of the state does to each field: no later proof unfolds a record update. -/

namespace Sys2Proof.Machine

variable (s : State)

@[simp] theorem State.setCal_cal (c : Calibration) : (s.setCal c).cal = c := rfl
@[simp] theorem State.setCal_pos (c : Calibration) : (s.setCal c).pos = s.pos := rfl
@[simp] theorem State.setCal_enableOutput (c : Calibration) : (s.setCal c).enableOutput = s.enableOutput := rfl
@[simp] theorem State.setCal_buf (c : Calibration) : (s.setCal c).buf = s.buf := rfl
@[simp] theorem State.setCal_inputs (c : Calibration) : (s.setCal c).inputs = s.inputs := rfl
@[simp] theorem State.setCal_response (c : Calibration) : (s.setCal c).response = s.response := rfl
@[simp] theorem State.setCal_draws (c : Calibration) : (s.setCal c).draws = s.draws := rfl
@[simp] theorem State.setCal_params (c : Calibration) : (s.setCal c).params = s.params := rfl

@[simp] theorem State.setPos_cal (p : Half) : (s.setPos p).cal = s.cal := rfl
@[simp] theorem State.setPos_pos (p : Half) : (s.setPos p).pos = p := rfl
@[simp] theorem State.setPos_enableOutput (p : Half) : (s.setPos p).enableOutput = s.enableOutput := rfl
@[simp] theorem State.setPos_buf (p : Half) : (s.setPos p).buf = s.buf := rfl
@[simp] theorem State.setPos_inputs (p : Half) : (s.setPos p).inputs = s.inputs := rfl
@[simp] theorem State.setPos_response (p : Half) : (s.setPos p).response = s.response := rfl
@[simp] theorem State.setPos_draws (p : Half) : (s.setPos p).draws = s.draws := rfl
@[simp] theorem State.setPos_params (p : Half) : (s.setPos p).params = s.params := rfl

@[simp] theorem State.setBuf_cal (m : Memory) : (s.setBuf m).cal = s.cal := rfl
@[simp] theorem State.setBuf_pos (m : Memory) : (s.setBuf m).pos = s.pos := rfl
@[simp] theorem State.setBuf_enableOutput (m : Memory) : (s.setBuf m).enableOutput = s.enableOutput := rfl
@[simp] theorem State.setBuf_buf (m : Memory) : (s.setBuf m).buf = m := rfl
@[simp] theorem State.setBuf_inputs (m : Memory) : (s.setBuf m).inputs = s.inputs := rfl
@[simp] theorem State.setBuf_response (m : Memory) : (s.setBuf m).response = s.response := rfl
@[simp] theorem State.setBuf_draws (m : Memory) : (s.setBuf m).draws = s.draws := rfl
@[simp] theorem State.setBuf_params (m : Memory) : (s.setBuf m).params = s.params := rfl

@[simp] theorem State.setEnable_cal (b : Bool) : (s.setEnable b).cal = s.cal := rfl
@[simp] theorem State.setEnable_pos (b : Bool) : (s.setEnable b).pos = s.pos := rfl
@[simp] theorem State.setEnable_enableOutput (b : Bool) : (s.setEnable b).enableOutput = b := rfl
@[simp] theorem State.setEnable_buf (b : Bool) : (s.setEnable b).buf = s.buf := rfl
@[simp] theorem State.setEnable_inputs (b : Bool) : (s.setEnable b).inputs = s.inputs := rfl
@[simp] theorem State.setEnable_response (b : Bool) : (s.setEnable b).response = s.response := rfl
@[simp] theorem State.setEnable_draws (b : Bool) : (s.setEnable b).draws = s.draws := rfl
@[simp] theorem State.setEnable_params (b : Bool) : (s.setEnable b).params = s.params := rfl

@[simp] theorem State.setInputs_cal (l : List Input) : (s.setInputs l).cal = s.cal := rfl
@[simp] theorem State.setInputs_pos (l : List Input) : (s.setInputs l).pos = s.pos := rfl
@[simp] theorem State.setInputs_enableOutput (l : List Input) : (s.setInputs l).enableOutput = s.enableOutput := rfl
@[simp] theorem State.setInputs_buf (l : List Input) : (s.setInputs l).buf = s.buf := rfl
@[simp] theorem State.setInputs_inputs (l : List Input) : (s.setInputs l).inputs = l := rfl
@[simp] theorem State.setInputs_response (l : List Input) : (s.setInputs l).response = s.response := rfl
@[simp] theorem State.setInputs_draws (l : List Input) : (s.setInputs l).draws = s.draws := rfl
@[simp] theorem State.setInputs_params (l : List Input) : (s.setInputs l).params = s.params := rfl

@[simp] theorem State.respond_cal (st : Status) (v : Word) : (s.respond st v).cal = s.cal := rfl
@[simp] theorem State.respond_pos (st : Status) (v : Word) : (s.respond st v).pos = s.pos := rfl
@[simp] theorem State.respond_enableOutput (st : Status) (v : Word) : (s.respond st v).enableOutput = s.enableOutput := rfl
@[simp] theorem State.respond_buf (st : Status) (v : Word) : (s.respond st v).buf = s.buf := rfl
@[simp] theorem State.respond_inputs (st : Status) (v : Word) : (s.respond st v).inputs = s.inputs := rfl
@[simp] theorem State.respond_response (st : Status) (v : Word) : (s.respond st v).response = some ⟨st, v⟩ := rfl
@[simp] theorem State.respond_draws (st : Status) (v : Word) : (s.respond st v).draws = s.draws := rfl
@[simp] theorem State.respond_params (st : Status) (v : Word) : (s.respond st v).params = s.params := rfl

@[simp] theorem State.noResponse_cal : (s.noResponse).cal = s.cal := rfl
@[simp] theorem State.noResponse_pos : (s.noResponse).pos = s.pos := rfl
@[simp] theorem State.noResponse_enableOutput : (s.noResponse).enableOutput = s.enableOutput := rfl
@[simp] theorem State.noResponse_buf : (s.noResponse).buf = s.buf := rfl
@[simp] theorem State.noResponse_inputs : (s.noResponse).inputs = s.inputs := rfl
@[simp] theorem State.noResponse_response : (s.noResponse).response = none := rfl
@[simp] theorem State.noResponse_draws : (s.noResponse).draws = s.draws := rfl
@[simp] theorem State.noResponse_params : (s.noResponse).params = s.params := rfl

@[simp] theorem State.skipDraws_cal (n : Nat) : (s.skipDraws n).cal = s.cal := rfl
@[simp] theorem State.skipDraws_pos (n : Nat) : (s.skipDraws n).pos = s.pos := rfl
@[simp] theorem State.skipDraws_enableOutput (n : Nat) : (s.skipDraws n).enableOutput = s.enableOutput := rfl
@[simp] theorem State.skipDraws_buf (n : Nat) : (s.skipDraws n).buf = s.buf := rfl
@[simp] theorem State.skipDraws_inputs (n : Nat) : (s.skipDraws n).inputs = s.inputs := rfl
@[simp] theorem State.skipDraws_response (n : Nat) : (s.skipDraws n).response = s.response := rfl
@[simp] theorem State.skipDraws_draws (n : Nat) : (s.skipDraws n).draws = s.draws + n := rfl
@[simp] theorem State.skipDraws_params (n : Nat) : (s.skipDraws n).params = s.params := rfl

@[simp] theorem State.drawCal_cal : (s.drawCal).cal = Calibration.drawnAt s.draws := rfl
@[simp] theorem State.drawCal_pos : (s.drawCal).pos = s.pos := rfl
@[simp] theorem State.drawCal_enableOutput : (s.drawCal).enableOutput = s.enableOutput := rfl
@[simp] theorem State.drawCal_buf : (s.drawCal).buf = s.buf := rfl
@[simp] theorem State.drawCal_inputs : (s.drawCal).inputs = s.inputs := rfl
@[simp] theorem State.drawCal_response : (s.drawCal).response = s.response := rfl
@[simp] theorem State.drawCal_draws : (s.drawCal).draws = s.draws + 6 := rfl
@[simp] theorem State.drawCal_params : (s.drawCal).params = s.params := rfl

@[simp] theorem State.drawPos_cal : (s.drawPos).cal = s.cal := rfl
@[simp] theorem State.drawPos_pos : (s.drawPos).pos = s.drawn 16 := rfl
@[simp] theorem State.drawPos_enableOutput : (s.drawPos).enableOutput = s.enableOutput := rfl
@[simp] theorem State.drawPos_buf : (s.drawPos).buf = s.buf := rfl
@[simp] theorem State.drawPos_inputs : (s.drawPos).inputs = s.inputs := rfl
@[simp] theorem State.drawPos_response : (s.drawPos).response = s.response := rfl
@[simp] theorem State.drawPos_draws : (s.drawPos).draws = s.draws + 1 := rfl
@[simp] theorem State.drawPos_params : (s.drawPos).params = s.params := rfl

@[simp] theorem State.toDefaults_cal : (s.toDefaults).cal = Calibration.initial := rfl
@[simp] theorem State.toDefaults_pos : (s.toDefaults).pos = Calibration.initial.zero := rfl
@[simp] theorem State.toDefaults_enableOutput : (s.toDefaults).enableOutput = false := rfl
@[simp] theorem State.toDefaults_buf : (s.toDefaults).buf = s.buf := rfl
@[simp] theorem State.toDefaults_inputs : (s.toDefaults).inputs = s.inputs := rfl
@[simp] theorem State.toDefaults_response : (s.toDefaults).response = s.response := rfl
@[simp] theorem State.toDefaults_draws : (s.toDefaults).draws = s.draws := rfl
@[simp] theorem State.toDefaults_params : (s.toDefaults).params = s.params := rfl

end Sys2Proof.Machine
end

