-- ==== Sys2Proof/Laws/Exec.lean ====
section
/-! SUPPORT. One equation per case of `step`, and for each meaning that branches one lemma that says everything it can
answer. -/

namespace Sys2Proof.Machine

theorem step_idle {s : State} (h : s.inputs = []) : step s = .next s.idle := by simp [step, h]

theorem step_frame {s : State} {f : Frame} {rest : List Input} (h : s.inputs = .frame f :: rest) :
    step s = stepFrame f (s.setInputs rest) := by simp [step, h]

theorem step_reset {s : State} {rest : List Input} (h : s.inputs = .reset :: rest) :
    step s = .next (s.setInputs rest).applyReset := by simp [step, h]

theorem step_store {s : State} {a : Word} {v : Byte} {rest : List Input} (h : s.inputs = .store a v :: rest) :
    step s = .next ((s.setInputs rest).applyStore a v) := by simp [step, h]

theorem stepFrame_ok {f : Frame} {i : Instr} (h : decode f = .ok i) (s : State) : stepFrame f s = exec i s := by
  simp [stepFrame, h]

theorem stepFrame_error {f : Frame} {e : Illegal} (h : decode f = .error e) (s : State) :
    stepFrame f s = .next s.rejectFrame := by simp [stepFrame, h]

/-- One more step of a run, for any machine of the host's interface. -/
theorem coreRun_succ (M : Host.Core) (k : Nat) (s : M.State) :
    M.run (k + 1) s = (match M.step s with
      | .next t => M.run k t
      | .fault r => .fault r
      | .refused r => .refused r) := rfl

/-- A run that takes a step goes on from the state it leads to. -/
theorem run_next {s t : State} (h : step s = .next t) (k : Nat) :
    Host.Core.run Sys2Proof.core (k + 1) s = Host.Core.run Sys2Proof.core k t := by
  have h' : Sys2Proof.core.step s = .next t := h
  exact (coreRun_succ Sys2Proof.core k s).trans (by rw [h'])

/-- A run that faults at its first step. -/
theorem run_fault {s : State} {r : Fault} (h : step s = .fault r) (k : Nat) :
    Host.Core.run Sys2Proof.core (k + 1) s = .fault r := by
  have h' : Sys2Proof.core.step s = .fault r := h
  exact (coreRun_succ Sys2Proof.core k s).trans (by rw [h'])

/-- What a LOAD of a window that is no record leaves: the calibration and the counter of free values are the only fields of
the block it changes, and its response is FAIL, or, under `any`, FAIL or OK. -/
theorem loadRejected_cases (a : Word) (s : State) :
    ∃ c n r, loadRejected a s = { s with cal := c, draws := n, response := some r } ∧ s.draws < n ∧
      (r = ⟨.fail, 0⟩ ∨ (s.params.noncanonicalLoad = .any ∧ r = ⟨.ok, continuation a⟩)) := by
  unfold loadRejected
  split
  · exact ⟨_, _, _, rfl, by simp, .inl rfl⟩
  · rename_i h
    split
    · exact ⟨_, _, _, rfl, by simp; omega, .inr ⟨h, rfl⟩⟩
    · exact ⟨_, _, _, rfl, by simp; omega, .inl rfl⟩

/-- Everything LOAD can answer. -/
theorem execLoad_cases (a : Word) (s : State) :
    (windowAdmitted s.params.admitted a = false ∧ execLoad a s = .fault (.bufferWindow a)) ∨
    (windowAdmitted s.params.admitted a = true ∧ canonical (Memory.readBytes s.buf a.toNat recordLength) = true ∧
      execLoad a s =
        .next ((s.setCal (recordFields (Memory.readBytes s.buf a.toNat recordLength))).respond .ok (continuation a))) ∨
    (windowAdmitted s.params.admitted a = true ∧ canonical (Memory.readBytes s.buf a.toNat recordLength) = false ∧
      execLoad a s = .next (loadRejected a s)) := by
  unfold execLoad
  cases hw : windowAdmitted s.params.admitted a <;>
    cases hc : canonical (Memory.readBytes s.buf a.toNat recordLength) <;> simp [hc]

/-- Everything SAVE can answer. -/
theorem execSave_cases (a : Word) (s : State) :
    (windowAdmitted s.params.admitted a = false ∧ execSave a s = .fault (.bufferWindow a)) ∨
    (windowAdmitted s.params.admitted a = true ∧
      execSave a s = .next ((s.setBuf (Memory.writeBytes s.buf a.toNat (encodeRecord s.cal))).respond .ok (continuation a))) := by
  unfold execSave
  cases hw : windowAdmitted s.params.admitted a <;> simp

/-- Everything SET can answer: it draws `pos`, or maps it. -/
theorem execSet_cases (d : Word) (s : State) :
    (setDraws d s = true ∧ execSet d s = .next (s.drawPos.respond .ok 0)) ∨
    (setDraws d s = false ∧
      execSet d s =
        .next ((s.setPos (mapPosition s.params s.cal (setInput d) (selectGain s.cal (setInput d)))).respond .ok 0)) := by
  simp only [execSet, setDraws]
  by_cases h1 : (setInput d).isInfinite = true ∧ selectGain s.cal (setInput d) = 0
  · simp [h1.1, h1.2]
  · by_cases h2 : s.cal.max < s.cal.min ∧ s.params.invertedClamp = .draw
    · simp [h2.1, h2.2]
    · refine .inr ⟨?_, by rw [if_neg h1, if_neg h2]⟩
      simp only [Bool.or_eq_false_iff, Bool.and_eq_false_imp, decide_eq_true_eq, beq_eq_false_iff_ne]
      exact ⟨fun hx hg => h1 ⟨hx, hg⟩, fun hc hi => h2 ⟨hc, hi⟩⟩

/-- What any command that answers a next state leaves of the ports and the parameters, and that it answers a response. -/
theorem exec_ports {i : Instr} {s t : State} (h : exec i s = .next t) :
    t.inputs = s.inputs ∧ t.params = s.params ∧ s.draws ≤ t.draws ∧ t.response.isSome := by
  cases i with
  | load a =>
    rcases execLoad_cases a s with ⟨-, e⟩ | ⟨-, -, e⟩ | ⟨-, -, e⟩
    · simp [exec, e] at h
    · simp only [exec, e, Host.Outcome.next.injEq] at h
      subst h; simp
    · simp only [exec, e, Host.Outcome.next.injEq] at h
      obtain ⟨c, n, r, hr, hn, -⟩ := loadRejected_cases a s
      rw [← h, hr]; simp; omega
  | save a =>
    rcases execSave_cases a s with ⟨-, e⟩ | ⟨-, e⟩
    · simp [exec, e] at h
    · simp only [exec, e, Host.Outcome.next.injEq] at h
      subst h; simp
  | set d =>
    rcases execSet_cases d s with ⟨-, e⟩ | ⟨-, e⟩ <;>
      (simp only [exec, e, Host.Outcome.next.injEq] at h; subst h; simp)
  | init => simp only [exec, execInit, Host.Outcome.next.injEq] at h; subst h; simp
  | enable => simp only [exec, execEnable, Host.Outcome.next.injEq] at h; subst h; simp
  | disable => simp only [exec, execDisable, Host.Outcome.next.injEq] at h; subst h; simp
  | setRaw w => simp only [exec, execSetRaw, Host.Outcome.next.injEq] at h; subst h; simp
  | getPwm => simp only [exec, execGetPwm, Host.Outcome.next.injEq] at h; subst h; simp
  | getUpdatePeriod => simp only [exec, execGetUpdatePeriod, Host.Outcome.next.injEq] at h; subst h; simp
  | rdcal k => simp only [exec, execRdcal, Host.Outcome.next.injEq] at h; subst h; simp
  | wrcal k w => simp only [exec, execWrcal, Host.Outcome.next.injEq] at h; subst h; simp
  | getEnable => simp only [exec, execGetEnable, Host.Outcome.next.injEq] at h; subst h; simp

end Sys2Proof.Machine
end

