-- ==== Sys2Proof/Laws/Mapper.lean ====
section
/-! SUPPORT. The shared operations of SET, one lemma each: rounding (its neighbours), truncation, the clamp, and when SET
draws. -/

namespace Sys2Proof.Machine

/-- The rounding of an integer, the denominator gone. -/
theorem roundNearestEven_one (p n : Nat) : roundNearestEven p n 1 =
    (if 2 ^ ulpShift p n < 2 * (n % 2 ^ ulpShift p n) ∨
        (2 * (n % 2 ^ ulpShift p n) = 2 ^ ulpShift p n ∧ (n / 2 ^ ulpShift p n) % 2 = 1)
      then n / 2 ^ ulpShift p n + 1 else n / 2 ^ ulpShift p n) * 2 ^ ulpShift p n := by
  simp [roundNearestEven]

/-- The kept part of a number has at most `p` significant bits. -/
theorem quotient_lt (p n : Nat) : n / 2 ^ ulpShift p n < 2 ^ p := by
  rw [Nat.div_lt_iff_lt_mul (by positivity), ← pow_add]
  have := @Nat.lt_log2_self n
  exact this.trans_le (Nat.pow_le_pow_right (by norm_num) (by unfold ulpShift; omega))

/-- The kept part of a number with bits to drop has exactly `p` significant bits. -/
theorem quotient_ge (p n : Nat) (hp : 0 < p) (hk : ulpShift p n ≠ 0) : 2 ^ (p-1) ≤ n / 2 ^ ulpShift p n := by
  rw [Nat.le_div_iff_mul_le (by positivity), ← pow_add]
  have hn : n ≠ 0 := by rintro rfl; unfold ulpShift at hk; simp at hk; omega
  refine le_trans (Nat.pow_le_pow_right (by norm_num) ?_) (Nat.log2_self_le hn)
  unfold ulpShift at *; omega

/-- No value of at most `p` significant bits lies strictly between a number's two neighbours. -/
theorem representable_outside (p n m : Nat) (hp : 0 < p) (h : Representable p m) :
    m ≤ n / 2 ^ ulpShift p n * 2 ^ ulpShift p n ∨ (n / 2 ^ ulpShift p n + 1) * 2 ^ ulpShift p n ≤ m := by
  obtain ⟨a, j, ha, rfl⟩ := h
  by_contra hc
  push Not at hc
  obtain ⟨h1, h2⟩ := hc
  have hk := quotient_ge p n hp
  set k := ulpShift p n
  set q := n / 2 ^ k
  by_cases hj : k ≤ j
  · obtain ⟨i, rfl⟩ := Nat.exists_eq_add_of_le hj
    rw [pow_add, show a * (2^k*2^i) = a * 2^i * 2^k by ring] at h1 h2
    have h1' := Nat.lt_of_mul_lt_mul_right h1
    have h2' := Nat.lt_of_mul_lt_mul_right h2
    omega
  · have hk' := hk (by omega)
    have : a * 2 ^ j < 2 ^ (p-1) * 2 ^ k := by
      calc a * 2 ^ j < 2 ^ p * 2 ^ j := Nat.mul_lt_mul_of_pos_right ha (by positivity)
        _ ≤ 2 ^ p * 2 ^ (k-1) := Nat.mul_le_mul_left _ (Nat.pow_le_pow_right (by norm_num) (by omega))
        _ = 2 ^ (p-1) * 2 ^ k := by rw [← pow_add, ← pow_add]; congr 1; omega
    have := Nat.mul_le_mul_right (2^k) hk'
    omega

/-- More bits represent more. -/
theorem Representable.mono {p q n : ℕ} (hpq : p ≤ q) : Representable p n → Representable q n := by
  rintro ⟨m, k, h, e⟩
  exact ⟨m, k, h.trans_le (Nat.pow_le_pow_right (by norm_num) hpq), e⟩

/-- The binary32 bound is below the binary64 one. -/
theorem overflow32_lt_overflow64 : overflow32 < overflow64 := by decide +kernel

/-- Truncation undoes the widening of a field. -/
theorem truncate_unitsOf (h : Half) : truncate (unitsOf h) = h := by
  unfold truncate unitsOf unitsPerOne
  rw [Int.mul_ediv_cancel _ (by norm_num)]
  simp

/-- Fields compare as their numbers do. -/
theorem unitsOf_le {a b : Half} : unitsOf a ≤ unitsOf b ↔ a ≤ b := by
  unfold unitsOf unitsPerOne
  rw [BitVec.le_def]
  constructor <;> intro h
  · have := Int.le_of_mul_le_mul_right h (by norm_num)
    omega
  · exact Int.mul_le_mul_of_nonneg_right (by omega) (by norm_num)

/-- Fields compare as their numbers do, strictly. -/
theorem unitsOf_lt {a b : Half} : unitsOf a < unitsOf b ↔ a < b := by
  rw [← not_le, unitsOf_le, BitVec.not_le]

/-- A field is not negative. -/
theorem unitsOf_nonneg (a : Half) : 0 ≤ unitsOf a := by unfold unitsOf unitsPerOne; positivity

/-- Truncation of a number no field exceeds loses only the fraction (42_mapper.md R136). -/
theorem truncate_toNat {n : Int} {b : Half} (h0 : 0 ≤ n) (h : n ≤ unitsOf b) :
    ((truncate n).toNat : ℤ) = n / unitsPerOne := by
  unfold truncate
  have h1 : 0 ≤ n / unitsPerOne := Int.ediv_nonneg h0 (by norm_num [unitsPerOne])
  have h2 : n / unitsPerOne < 2^16 := by
    have := b.isLt
    apply Int.ediv_lt_of_lt_mul (by norm_num [unitsPerOne])
    refine lt_of_le_of_lt h ?_
    unfold unitsOf
    exact Int.mul_lt_mul_of_pos_right (by omega) (by norm_num [unitsPerOne])
  rw [BitVec.toNat_ofInt]
  omega

/-- Truncation keeps order. -/
theorem truncate_mono {m n : Int} {b : Half} (h0 : 0 ≤ m) (h : m ≤ n) (h' : n ≤ unitsOf b) :
    truncate m ≤ truncate n := by
  have a := truncate_toNat h0 (h.trans h')
  have c := truncate_toNat (h0.trans h) h'
  have := Int.ediv_le_ediv (c := unitsPerOne) (by norm_num [unitsPerOne]) h
  rw [BitVec.le_def]; omega

/-- With the limits in order the clamp tests `min` first whatever the parameter (42_mapper.md R135). -/
theorem clampTo_of_le {ic lo hi} (h : lo ≤ hi) (v) :
    clampTo ic lo hi v = clampMinFirst (unitsOf lo) (unitsOf hi) v := by
  unfold clampTo
  rw [if_neg]; rintro ⟨h1, -⟩; bv_omega

/-- The clamped number lies between the limits. -/
theorem clampMinFirst_range {lo hi : Int} (h : lo ≤ hi) (v) : lo ≤ clampMinFirst lo hi v ∧ clampMinFirst lo hi v ≤ hi := by
  unfold clampMinFirst
  split
  · omega
  · (repeat' split) <;> omega
  · omega

/-- The clamp keeps order. -/
theorem clampMinFirst_mono {lo hi : Int} (h : lo ≤ hi) {v w} (hv : Ext.le v w) :
    clampMinFirst lo hi v ≤ clampMinFirst lo hi w := by
  cases v <;> cases w <;> simp [Ext.le, clampMinFirst] at * <;> (repeat' split) <;> omega

/-- With the limits in order SET draws only on an infinity with a zero gain (60_exceptions.md R173). -/
theorem setDraws_of_le (d s) (h : s.cal.min ≤ s.cal.max)
    (hz : ¬((setInput d).isInfinite = true ∧ selectGain s.cal (setInput d) = 0)) :
    setDraws d s = false := by
  unfold setDraws
  have : ¬ (s.cal.max < s.cal.min) := by bv_omega
  simp [this]; simpa using hz

/-- SET when it draws nothing. -/
theorem exec_set_of_not_draws (d s) (h : setDraws d s = false) :
    exec (.set d) s =
      .next { s with
        pos := mapPosition s.params s.cal (setInput d) (selectGain s.cal (setInput d))
        response := some ⟨.ok, 0⟩ } := by
  rcases execSet_cases d s with ⟨h1, e⟩ | ⟨h1, e⟩
  · simp [h] at h1
  · exact e

end Sys2Proof.Machine
end

