-- ==== Sys2Proof/Laws/PerInstr.lean ====
section
/-! SUPPORT. Statements made per command, one lemma per constructor. Family `OpcodeRow`: the frame of a command has the fixed
bits of its row of spec/opcode_table.json. -/

namespace Sys2Proof.Laws.OpcodeRow

/-- `mask` and `match` of the row. -/
def row : Instr → Frame × Frame
  | .init => (0xFFFFFFFFFFFFFFFF, 0x0100000000000000)
  | .enable => (0xFFFFFFFFFFFFFFFF, 0x0200000000000000)
  | .disable => (0xFFFFFFFFFFFFFFFF, 0x0300000000000000)
  | .set _ => (0xFFFFFFFF00000000, 0x0400000000000000)
  | .setRaw _ => (0xFFFF0000FFFFFFFF, 0x0500000000000000)
  | .getPwm => (0xFFFFFFFFFFFFFFFF, 0x0600000000000000)
  | .getUpdatePeriod => (0xFFFFFFFFFFFFFFFF, 0x0700000000000000)
  | .load _ => (0xFFFFFFFF00000000, 0x0800000000000000)
  | .save _ => (0xFFFFFFFF00000000, 0x0900000000000000)
  | .rdcal _ => (0xFF00FFFFFFFFFFFF, 0x0A00000000000000)
  | .wrcal _ _ => (0xFF000000FFFFFFFF, 0x0B00000000000000)
  | .getEnable => (0xFFFFFFFFFFFFFFFF, 0x0C00000000000000)

/-- The row's fixed bits stand in the frame. -/
abbrev Statement (i : Instr) : Prop := encode i &&& (row i).1 = (row i).2

/-- Masking works field by field. -/
theorem ofFields_and (o s : BitVec 8) (m : Half) (d : Word) (o' s' : BitVec 8) (m' : Half) (d' : Word) :
    Frame.ofFields o s m d &&& Frame.ofFields o' s' m' d' = Frame.ofFields (o &&& o') (s &&& s') (m &&& m') (d &&& d') := by
  ext i hi
  simp only [Frame.ofFields, BitVec.getElem_and]
  grind

/-- A field the mask does not hold. -/
theorem masked {w : Nat} (x : BitVec w) : x &&& 0 = 0 := BitVec.and_zero

theorem init : Statement .init := by decide
theorem enable : Statement .enable := by decide
theorem disable : Statement .disable := by decide

theorem set (d : Word) : Statement (.set d) :=
  (ofFields_and 0x04 0 0 d 0xFF 0xFF 0xFFFF 0).trans (by rw [masked]; rfl)

theorem setRaw (w : Half) : Statement (.setRaw w) :=
  (ofFields_and 0x05 0 w 0 0xFF 0xFF 0 0xFFFFFFFF).trans (by rw [masked]; rfl)

theorem getPwm : Statement .getPwm := by decide
theorem getUpdatePeriod : Statement .getUpdatePeriod := by decide

theorem load (a : Word) : Statement (.load a) :=
  (ofFields_and 0x08 0 0 a 0xFF 0xFF 0xFFFF 0).trans (by rw [masked]; rfl)

theorem save (a : Word) : Statement (.save a) :=
  (ofFields_and 0x09 0 0 a 0xFF 0xFF 0xFFFF 0).trans (by rw [masked]; rfl)

theorem rdcal (k : CalField) : Statement (.rdcal k) := by cases k <;> decide

theorem wrcal (k : CalField) (w : Half) : Statement (.wrcal k w) :=
  (ofFields_and 0x0B k.sel w 0 0xFF 0 0 0xFFFFFFFF).trans (by rw [masked, masked]; rfl)

theorem getEnable : Statement .getEnable := by decide

end Sys2Proof.Laws.OpcodeRow
end

