-- ==== Sys2Proof/Tests/Slice0.lean ====
section
/-! SUPPORT. Tests against the worked examples and vectors of 95_test_vectors.md and 30_encoding.md R71, and for each statement
with hypotheses a state and operands that meet them all. -/

namespace Sys2Proof.Tests

open Sys2Proof.Machine

/-! ### Helpers -/

/-- What `f` sees of the next state, if there is one. -/
def after {α : Type} (o : Host.Outcome State Fault Refusal) (f : State → α) : Option α :=
  match o with
  | .next t => some (f t)
  | .fault _ => none
  | .refused _ => none

/-- The fault, if there is one. -/
def faultOf (o : Host.Outcome State Fault Refusal) : Option Fault :=
  match o with
  | .fault r => some r
  | .next _ => none
  | .refused _ => none

/-- The command a frame decodes to, if any. -/
def command (f : Frame) : Option Instr := (decode f).toOption

/-- The reference record of 30_encoding.md R73. -/
def referenceRecord : List Byte :=
  [0x96, 0xCD, 0x13, 0x88, 0xCD, 0x13, 0x88, 0xCD, 0x3A, 0x98, 0xCD, 0x23, 0x28, 0xCD, 0x52, 0x08, 0xCC, 0xC8]

/-- After reset, on platform P1 (95_test_vectors.md, conventions), with the bytes at `a`. -/
def onP1 (a : Nat) (bs : List Byte) : State :=
  { State.reset with params := { Params.default with admitted := [⟨0, 0xFFF⟩] }, buf := Memory.writeBytes [] a bs }

/-- After reset with a calibration of table M2. -/
def withCal (c : Calibration) : State := { State.reset with cal := c }

/-- The inverted calibration of table M2, under a value of `INVERTED_CLAMP`. -/
def inverted (ic : InvertedClamp) : State :=
  { State.reset with cal := ⟨5000, 5000, 15000, 21000, 9000, 200⟩, params := { Params.default with invertedClamp := ic } }

/-! ### Well-formedness: each check refuses an ill-formed term -/

theorem test_wide_period_is_ill_formed : (Instr.wrcal .updatePeriod 0x0100).wellFormed = false := by decide
theorem test_narrow_period_is_well_formed : (Instr.wrcal .updatePeriod 0x00FF).wellFormed = true := by decide
theorem test_wide_max_is_well_formed : (Instr.wrcal .max 0xFFFF).wellFormed = true := by decide

/-! ### Decoding: one word per constructor, written out from 30_encoding.md R60, R62 and R71 -/

theorem test_decode_init : command 0x0100000000000000 = some .init := by decide
theorem test_decode_enable : command 0x0200000000000000 = some .enable := by decide
theorem test_decode_disable : command 0x0300000000000000 = some .disable := by decide
theorem test_decode_set : command 0x040000003F000000 = some (.set 0x3F000000) := by decide
theorem test_decode_setRaw : command 0x0500271000000000 = some (.setRaw 10000) := by decide
theorem test_decode_getPwm : command 0x0600000000000000 = some .getPwm := by decide
theorem test_decode_getUpdatePeriod : command 0x0700000000000000 = some .getUpdatePeriod := by decide
theorem test_decode_load : command 0x08000000FFFFFFEE = some (.load 0xFFFFFFEE) := by decide
theorem test_decode_save : command 0x0900000000000200 = some (.save 0x200) := by decide
theorem test_decode_rdcal : command 0x0A04000000000000 = some (.rdcal .max) := by decide
theorem test_decode_wrcal : command 0x0B0500FF00000000 = some (.wrcal .updatePeriod 255) := by decide
theorem test_decode_getEnable : command 0x0C00000000000000 = some .getEnable := by decide

/-- The illegal frames of 95_test_vectors.md 2.1, by cause. -/
theorem test_illegal_frames :
    [0x0000000000000000, 0x0D00000000000000, 0xFF00000000000000, 0x0101000000000000, 0x0100000000000001,
      0x0200000100000000, 0x0400000100000000, 0x0401000000000000, 0x0501271000000000, 0x0500271000000001,
      0x0600000000000001, 0x0701000000000000, 0x0800000100000100, 0x0901000000000200, 0x0A06000000000000,
      0x0A00000100000000, 0x0A00000000000001, 0x0B05010000000000, 0x0B05FFFF00000000, 0x0BFF000000000000,
      0x0B00000000000001, 0x0C00000000000001].map command = List.replicate 22 none := by decide

theorem test_table_word : decodeTableWord 64 0x0B0232C800000000 = some (.wrcal .zero 13000) := by decide

/-! ### The assembler (30_encoding.md R69; patterns of 95_test_vectors.md table M1) -/

theorem test_assemble_decimals :
    ["SET 0.3", "SET 0.99999", "SET 1.0001", "SET -0.0001", "SET nan", "SET -inf"].map assembleText =
      [some 0x040000003E99999A, some 0x040000003F7FFF58, some 0x040000003F800347, some 0x04000000B8D1B717,
        some 0x040000007FC00000, some 0x04000000FF800000] := by decide +kernel

theorem test_assemble_out_of_range :
    ["SET_RAW #65536", "WRCAL update_period, #256", "LOAD [0x100000000]", "RDCAL pos"].map assembleText =
      [none, none, none, none] := by decide +kernel

/-! ### Commands -/

/-- 95_test_vectors.md 2.2, second row. -/
theorem test_init :
    after (exec .init { State.reset with pos := 30000, enableOutput := true, cal := { Calibration.initial with min := 1 } })
      id = some { State.reset with response := some ⟨.ok, 0⟩ } := by decide

theorem test_enable : after (exec .enable State.reset) (fun t => (t.enableOutput, t.pos)) = some (true, 15000) := by decide

/-- 95_test_vectors.md 2.2: enable_output true, pos 12345. -/
theorem test_disable :
    after (exec .disable { State.reset with pos := 12345, enableOutput := true }) (fun t => (t.enableOutput, t.pos)) =
      some (false, 12345) := by decide

theorem test_getEnable :
    after (exec .getEnable { State.reset with enableOutput := true }) State.response = some (some ⟨.ok, 1⟩) := by decide

/-- 95_test_vectors.md part 3, row -0.1: `MAP_ARITH` decides the result. -/
theorem test_set_rounds :
    [MapArith.binary32, .binary64, .exact].map (fun A => after (exec (.set 0xBDCCCCCD) (withArith State.reset A)) State.pos) =
      [some 14500, some 14499, some 14499] := by decide +kernel

/-- 95_test_vectors.md table M2: gains and zero 65535, input -0.5. -/
theorem test_set_truncates :
    after (exec (.set 0xBF000000) (withCal ⟨65535, 65535, 65535, 0, 65535, 200⟩)) State.pos = some 32767 := by decide

theorem test_setRaw_unclamped : after (exec (.setRaw 30000) State.reset) State.pos = some 30000 := by decide
theorem test_getPwm : after (exec .getPwm State.reset) State.response = some (some ⟨.ok, 15000⟩) := by decide

theorem test_getUpdatePeriod_largest :
    after (exec .getUpdatePeriod (withCal { Calibration.initial with updatePeriod := 255 })) State.response =
      some (some ⟨.ok, 255000⟩) := by decide

/-- 95_test_vectors.md table C2, first row: inverted limits and a zero gain are accepted. -/
theorem test_load_takes_any_values :
    after (exec (.load 0x100) (onP1 0x100 [0x96, 0xCD, 0xFF, 0xFF, 0xCD, 0x00, 0x00, 0xCD, 0x80, 0x00, 0xCD, 0x52, 0x08,
      0xCD, 0x23, 0x28, 0xCC, 0x00])) (fun t => (t.cal, t.response)) =
      some (⟨65535, 0, 32768, 21000, 9000, 0⟩, some ⟨.ok, 0x112⟩) := by decide

/-- 95_test_vectors.md table C3, first row: FAIL leaves `pos` and the flag. -/
theorem test_load_rejects_header :
    after (exec (.load 0x100) (onP1 0x100 (0x95 :: referenceRecord.tail))) (fun t => (t.pos, t.enableOutput, t.response)) =
      some (15000, false, some ⟨.fail, 0⟩) := by decide

/-- 95_test_vectors.md S1 and table C4: the reference bytes, the neighbours untouched. -/
theorem test_save_reference :
    after (exec (.save 0x100) { onP1 0x0FF [0xAA] with buf := [(0x0FF, 0xAA), (0x112, 0xAA)] })
      (fun t => (Memory.readBytes t.buf 0x0FF 20, t.response)) =
      some (0xAA :: referenceRecord ++ [0xAA], some ⟨.ok, 0x112⟩) := by decide

/-- 95_test_vectors.md table C4: the last window of P1, the one after it, and the two at the top of the space. -/
theorem test_window_edges :
    faultOf (exec (.save 0xFEE) (onP1 0 [])) = none ∧ faultOf (exec (.save 0xFEF) (onP1 0 [])) = some (.bufferWindow 0xFEF) ∧
      faultOf (exec (.load 0xFFFFFFEE) State.reset) = none ∧
      faultOf (exec (.load 0xFFFFFFEF) State.reset) = some (.bufferWindow 0xFFFFFFEF) := by decide

theorem test_rdcal : after (exec (.rdcal .updatePeriod) State.reset) State.response = some (some ⟨.ok, 200⟩) := by decide

/-- 95_test_vectors.md 2.5: `pos` stays. -/
theorem test_wrcal :
    after (exec (.wrcal .zero 13000) State.reset) (fun t => (t.cal, t.pos)) =
      some (⟨5000, 5000, 13000, 9000, 21000, 200⟩, 15000) := by decide

/-! ### Steps -/

/-- The first word after reset is fetched and run (95_test_vectors.md program 1, row 2). -/
theorem test_step_runs_first_frame :
    after (step (State.reset.withFetchWord 64 0x040000003F000000)) (fun t => (t.pos, t.inputs, t.response)) =
      some (17500, [], some ⟨.ok, 0⟩) := by decide

/-- 95_test_vectors.md 2.5: WRCAL update_period, #256 is illegal and changes nothing. -/
theorem test_step_answers_illegal :
    after (step (State.reset.withFetchWord 64 0x0B05010000000000)) id =
      some { State.reset with response := some ⟨.illegal, 0⟩ } := by decide

/-- Reset leaves the frames behind it waiting (70_reset_and_hazards.md R190). -/
theorem test_step_reset_input :
    after (step { State.reset with pos := 1, enableOutput := true, inputs := [.reset, .frame 0x0600000000000000] }) id =
      some { State.reset with inputs := [.frame 0x0600000000000000] } := by decide

/-- The observer port after reset (95_test_vectors.md 2.2). -/
theorem test_observer_after_reset : State.reset.observe = ⟨15000, 200000, false⟩ := by decide

/-! ### Witnesses: states and operands that meet the hypotheses of each statement -/

/-- A state whose window at 0x100 holds the reference record. -/
def holdsReference : State := onP1 0x100 referenceRecord

theorem witness_IllegalFrames : (State.reset.withFetchWord 64 0).inputs = .frame 0 :: [] ∧ ¬ legalFrame 0 :=
  ⟨by decide, fun h => absurd h.1.1 (by decide)⟩

theorem witness_DecodeOfEncode : (Instr.wrcal .updatePeriod 20).wellFormed = true := by decide
theorem witness_EncodeOfDecode : decode 0x0B05001400000000 = .ok (.wrcal .updatePeriod 20) := rfl
theorem witness_CanonicalRecords : canonical referenceRecord = true := by decide

theorem witness_ResetInput :
    ({ State.reset with inputs := [.reset, .frame 0] } : State).inputs = .reset :: [.frame 0] := rfl

theorem witness_Binary32Patterns :
    ((0x00000001 : Word).extractLsb 30 23).toNat = 0 ∧
      (1 ≤ ((0x00800000 : Word).extractLsb 30 23).toNat ∧ ((0x7F7FFFFF : Word).extractLsb 30 23).toNat ≤ 254) ∧
      (((0xFF800000 : Word).extractLsb 30 23).toNat = 255 ∧ ((0xFF800000 : Word).extractLsb 22 0).toNat = 0) ∧
      ((0x7F800001 : Word).extractLsb 22 0).toNat ≠ 0 := by decide

theorem witness_NanAndZero :
    f32 0x7FC00000 = none ∧ f32 0xFFFFFFFF = none ∧ f32 0x00000000 = some (.fin 0) ∧ f32 0x80000000 = some (.fin 0) ∧
      State.reset.cal.min ≤ State.reset.cal.max := by decide

theorem witness_SetUsesTheGain :
    (setInput 0x00000001).isPositive = true ∧ (setInput 0x80000001).isPositive = false ∧
      setDraws 0x00000001 State.reset = false ∧ setDraws 0x80000001 State.reset = false ∧
      (after (exec (.set 0x00000001) State.reset) id).isSome = true ∧
      (after (exec (.set 0x80000001) State.reset) id).isSome = true := by decide

/-- A tie: 2^24 + 1 lies half way between two 24-bit values. -/
theorem witness_RoundingTies :
    Representable 24 (2 ^ 24 + 2) ∧ 2 ^ 24 + 2 ≠ roundNearestEven 24 (2 ^ 24 + 1) 1 ∧
      |((2 ^ 24 + 1 : Nat) : ℤ) - roundNearestEven 24 (2 ^ 24 + 1) 1| = |((2 ^ 24 + 1 : Nat) : ℤ) - (2 ^ 24 + 2 : Nat)| :=
  ⟨⟨2 ^ 23 + 1, 1, by decide, by decide⟩, by decide, by decide⟩

/-- Both sides of each threshold. -/
theorem witness_RoundingThresholds :
    roundUnder .binary32 overflow32 = .posInf ∧ roundUnder .binary32 (-overflow32) = .negInf ∧
      (roundUnder .binary32 (overflow32 - 1)).isInfinite = false ∧ roundUnder .binary64 overflow64 = .posInf ∧
      roundUnder .binary64 (-overflow64) = .negInf ∧ (roundUnder .binary64 (overflow64 - 1)).isInfinite = false := by
  decide +kernel

/-- A finite input whose product and sum stay finite, one whose product overflows each way. -/
theorem witness_SetMatchesRealArithmetic :
    f32 0x3F000000 = some (.fin (2 ^ 148)) ∧ State.reset.cal.min ≤ State.reset.cal.max ∧
      roundUnder .binary32 (2 ^ 148 * 5000) = .fin (2500 * 2 ^ 149) ∧
      roundUnder .binary32 (15000 * 2 ^ 149 + 2500 * 2 ^ 149) = .fin (17500 * 2 ^ 149) ∧
      mapMul .binary32 (setInput 0x7F7FFFFF) 5000 = .posInf ∧ mapMul .binary32 (setInput 0xFF7FFFFF) 5000 = .negInf := by
  decide

theorem witness_SetAlwaysCompletes : setDraws 0x3F000000 State.reset = false := by decide

theorem witness_InfiniteInputWithZeroGain :
    (f32 0x7F800000 = some .posInf ∧ (withCal ⟨0, 5000, 15000, 9000, 21000, 200⟩).cal.gainPos = 0) ∧
      (f32 0xFF800000 = some .negInf ∧ (withCal ⟨5000, 0, 15000, 9000, 21000, 200⟩).cal.gainNeg = 0) := by decide

/-- Inputs on both sides of the limit that decides, for each value of the parameter. -/
theorem witness_InvertedClamp :
    (inverted .draw).cal.max < (inverted .draw).cal.min ∧ (setInput 0x3F000000).isInfinite = false ∧
      unclamped 0x3F000000 (inverted .minFirst) = .fin (17500 * 2 ^ 149) ∧
      unclamped 0x40000000 (inverted .minFirst) = .fin (25000 * 2 ^ 149) ∧
      unclamped 0x3F000000 (inverted .maxFirst) = .fin (17500 * 2 ^ 149) ∧
      unclamped 0xC0000000 (inverted .maxFirst) = .fin (5000 * 2 ^ 149) := by decide

/-- 95_test_vectors.md table M2, last row: the stored limits. -/
theorem witness_InvertedClampOutcomes :
    after (exec (.set 0x3F000000) (inverted .minFirst)) State.pos = some 21000 ∧
      after (exec (.set 0x3F000000) (inverted .maxFirst)) State.pos = some 9000 := by decide

theorem witness_Infinities :
    State.reset.cal.min ≤ State.reset.cal.max ∧ State.reset.cal.gainPos ≠ 0 ∧ State.reset.cal.gainNeg ≠ 0 := by decide

theorem witness_SetStaysBetween :
    State.reset.cal.min ≤ State.reset.cal.max ∧
      ¬((setInput 0x7F800000).isInfinite = true ∧ selectGain State.reset.cal (setInput 0x7F800000) = 0) := by decide

theorem witness_SetIsMonotone :
    f32 0xFF800000 = some .negInf ∧ f32 0x00000000 = some (.fin 0) ∧ Ext.le .negInf (.fin 0) ∧
      selectGain State.reset.cal .negInf ≠ 0 ∧ (Ext.fin 0).isInfinite = false ∧
      (after (exec (.set 0xFF800000) State.reset) id).isSome = true ∧
      (after (exec (.set 0x00000000) State.reset) id).isSome = true :=
  ⟨by decide, by decide, trivial, by decide, by decide, by decide, by decide⟩

theorem witness_ExactInputs :
    f32 0x3F000000 = some (.fin (2 ^ 148)) ∧ setDraws 0x3F000000 State.reset = false ∧ binary32Value (2 ^ 148 * 5000) ∧
      binary32Value (unitsOf 15000 + 2 ^ 148 * 5000) :=
  ⟨by decide, by decide, ⟨⟨5000, 148, by decide, by decide⟩, by decide⟩, ⟨⟨17500, 149, by decide, by decide⟩, by decide⟩⟩

/-- A window of P1 that is admitted and the one at the top of the space. -/
theorem witness_admittedAt :
    admittedAt holdsReference.params.admitted 0xFEE ∧ admittedAt State.reset.params.admitted 0xFFFFFFEE := by
  unfold admittedAt; decide

theorem witness_not_admittedAt :
    ¬ admittedAt holdsReference.params.admitted 0xFEF ∧ ¬ admittedAt State.reset.params.admitted 0xFFFFFFEF := by
  unfold admittedAt; decide

theorem witness_LoadTakes :
    admittedAt holdsReference.params.admitted 0x100 ∧ canonicalAt holdsReference.buf (0x100 : Word).toNat := by
  unfold admittedAt canonicalAt; decide

theorem witness_LoadRejects :
    admittedAt State.reset.params.admitted 0x100 ∧ ¬ canonicalAt State.reset.buf (0x100 : Word).toNat ∧
      State.reset.params.noncanonicalLoad = .reject := by
  unfold admittedAt canonicalAt; decide

/-- After reset under `NONCANONICAL_LOAD` = `any`. -/
def lenient : State := { State.reset with params := { Params.default with noncanonicalLoad := .any } }

theorem witness_LenientLoad :
    admittedAt lenient.params.admitted 0x100 ∧ ¬ canonicalAt lenient.buf (0x100 : Word).toNat ∧
      lenient.params.noncanonicalLoad = .any := by
  unfold admittedAt canonicalAt; decide

/-- The state after the SAVE meets the hypotheses on the state of the LOAD. -/
theorem witness_LoadOfASave :
    admittedAt State.reset.params.admitted 0x200 ∧
      after (exec (.save 0x200) State.reset) State.params = some State.reset.params := by
  unfold admittedAt; decide

theorem witness_SaveOfALoad :
    admittedAt holdsReference.params.admitted 0x100 ∧ admittedAt holdsReference.params.admitted 0x200 ∧
      canonicalAt holdsReference.buf (0x100 : Word).toNat := by
  unfold admittedAt canonicalAt; decide

theorem witness_ContinuationWraps :
    (0xFFFFFFEE : Word).toNat + 17 ≤ 2 ^ 32 - 1 ∧ (0xFFFFFFEF : Word).toNat + 17 > 2 ^ 32 - 1 := by decide

theorem witness_RdcalReadsWhatWrcalWrote :
    (Instr.wrcal .updatePeriod 255).wellFormed = true ∧ CalField.max ≠ CalField.updatePeriod := by decide

/-- 95_test_vectors.md program 5, its mirror, and a move that needs no order. -/
theorem witness_ClampLimits :
    State.reset.cal.min ≤ State.reset.cal.max ∧ ((22000 : Half) ≤ 30000 ∧ State.reset.cal.max < 22000) ∧
      ((1000 : Half) ≤ 5000 ∧ (5000 : Half) < State.reset.cal.min) ∧
      ((10000 : Half) ≤ 20000 ∧ 10000 ≤ State.reset.cal.max ∧ State.reset.cal.min ≤ 20000) := by decide

/-- After reset with a SAVE on the command port. -/
def savePresented : State := State.reset.withFetchWord 64 0x0900000000000200

theorem witness_StepRuns :
    savePresented.inputs = .frame 0x0900000000000200 :: [] ∧ decode 0x0900000000000200 = .ok (.save 0x200) :=
  ⟨by decide, rfl⟩

theorem witness_StepKeeps : savePresented.Inv ∧ (after (step savePresented) id).isSome = true :=
  ⟨⟨List.Pairwise.nil, fun _ h => absurd h List.not_mem_nil⟩, by decide⟩

theorem witness_CalibrationWritten :
    (after (exec (.wrcal .zero 13000) State.reset) State.cal).isSome = true ∧
      after (exec (.wrcal .zero 13000) State.reset) State.cal ≠ some State.reset.cal := by decide

theorem witness_PosWritten :
    (after (exec (.setRaw 10000) State.reset) State.pos).isSome = true ∧
      after (exec (.setRaw 10000) State.reset) State.pos ≠ some State.reset.pos := by decide

theorem witness_FlagWritten :
    (after (exec .enable State.reset) State.enableOutput).isSome = true ∧
      after (exec .enable State.reset) State.enableOutput ≠ some State.reset.enableOutput := by decide

/-- The first and the last byte of the window change. -/
theorem witness_BufferWritten :
    after (exec (.save 0x200) State.reset) (fun t => (Memory.read t.buf 0x200, Memory.read t.buf 0x211)) =
      some (0x96, 0xC8) ∧ Memory.read State.reset.buf 0x200 = 0 ∧ Memory.read State.reset.buf 0x211 = 0 := by decide

theorem witness_OnlyInadmissibleWindowsStop :
    faultOf (step (State.reset.withFetchWord 64 0x08000000FFFFFFEF)) = some (.bufferWindow 0xFFFFFFEF) := by decide

theorem witness_SafeInputs : savePresented.safeInputs = true := by decide

theorem witness_TheFlagGatesNothing :
    sameButFlag savePresented { savePresented with enableOutput := true } ∧
      savePresented.inputs.all (fun x => !x.readsFlag) = true :=
  ⟨rfl, by decide⟩

theorem witness_StorageWrites :
    ({ State.reset with inputs := [.store 0xFFFFFFFF 0x96] } : State).inputs = .store 0xFFFFFFFF 0x96 :: [] := rfl

theorem witness_NothingPresented : State.reset.inputs = [] := rfl

/-- Every sample during a DISABLE is the one before or the one after: both occur. -/
theorem witness_OnlyInitPartDone :
    Instr.disable ≠ .init ∧
      after (exec .disable { State.reset with enableOutput := true })
        (fun t => (observableDuring { State.reset with enableOutput := true } t ⟨15000, 200000, true⟩,
          observableDuring { State.reset with enableOutput := true } t ⟨15000, 200000, false⟩)) = some (true, true) := by
  decide

/-- Two instances over one buffer. -/
def twoInstances : System where
  instances := [savePresented, State.reset]
  buf := []
  draws := 0

/-- The first steps and the second stays. -/
theorem witness_Instances :
    (match System.step twoInstances 0 with
      | .next T => some (T.instances[1]?, T.instances.length, Memory.read T.buf 0x200)
      | .fault _ => none
      | .refused _ => none) = some (some State.reset, 2, 0x96) ∧ (1 : Nat) ≠ 0 := by decide

end Sys2Proof.Tests
end

section
/-! SUPPORT. What the steps that run no command leave of the parameters (log 6), and from that what every step leaves. -/

namespace Sys2Proof.Machine

section Updates
variable (s : State)

@[simp] theorem State.idle_params : s.idle.params = s.params := rfl
@[simp] theorem State.rejectFrame_params : s.rejectFrame.params = s.params := rfl
@[simp] theorem State.applyReset_params : s.applyReset.params = s.params := rfl
@[simp] theorem State.applyStore_params (a : Word) (v : Byte) : (s.applyStore a v).params = s.params := rfl

end Updates

/-- A frame leaves the parameters, be it answered ILLEGAL or run as a command. -/
theorem stepFrame_params {f : Frame} {s t : State} (h : stepFrame f s = .next t) : t.params = s.params := by
  cases hd : decode f with
  | error e =>
    rw [stepFrame_error hd, Host.Outcome.next.injEq] at h
    rw [← h, State.rejectFrame_params]
  | ok i =>
    rw [stepFrame_ok hd] at h
    obtain ⟨-, hp, -⟩ := exec_ports h
    exact hp

/-- Settles O52, by cases on the input the step takes: none, a frame, a reset or a storage write. -/
theorem parametersNeverChange : Obligations.ParametersNeverChange := by
  unfold Obligations.ParametersNeverChange
  intro s t h
  cases hi : s.inputs with
  | nil =>
    rw [step_idle hi, Host.Outcome.next.injEq] at h
    simp [← h]
  | cons x rest =>
    cases x with
    | frame f =>
      rw [step_frame hi] at h
      simpa using stepFrame_params h
    | reset =>
      rw [step_reset hi, Host.Outcome.next.injEq] at h
      simp [← h]
    | store a v =>
      rw [step_store hi, Host.Outcome.next.injEq] at h
      simp [← h]

end Sys2Proof.Machine
end

section
/-! SUPPORT. What each command leaves of the block's fields, written once: an equation per command that cannot branch, an inversion
for LOAD, SAVE and SET, and from them which commands write the calibration, `pos` and the flag (10_state.md R23 to R25, R27). -/

namespace Sys2Proof.Machine

/-! ### The commands that answer one next state -/

section Equations
variable (s : State)

@[simp] theorem exec_init : exec .init s = .next (s.toDefaults.respond .ok 0) := rfl
@[simp] theorem exec_enable : exec .enable s = .next ((s.setEnable true).respond .ok 0) := rfl
@[simp] theorem exec_disable : exec .disable s = .next ((s.setEnable false).respond .ok 0) := rfl
@[simp] theorem exec_setRaw (w : Half) : exec (.setRaw w) s = .next ((s.setPos w).respond .ok 0) := rfl
@[simp] theorem exec_getPwm : exec .getPwm s = .next (s.respond .ok (s.pos.setWidth 32)) := rfl
@[simp] theorem exec_getUpdatePeriod : exec .getUpdatePeriod s = .next (s.respond .ok s.cal.periodTicks) := rfl
@[simp] theorem exec_rdcal (k : CalField) : exec (.rdcal k) s = .next (s.respond .ok (s.cal.field k)) := rfl
@[simp] theorem exec_wrcal (k : CalField) (w : Half) :
    exec (.wrcal k w) s = .next ((s.setCal (s.cal.withField k w)).respond .ok 0) := rfl
@[simp] theorem exec_getEnable : exec .getEnable s = .next (s.respond .ok s.enableValue) := rfl

end Equations

/-! ### The commands that branch -/

/-- A LOAD that completes writes the calibration, counts draws and responds. -/
theorem exec_load_next {a : Word} {s t : State} (h : exec (.load a) s = .next t) :
    ∃ c n r, t = { s with cal := c, draws := n, response := some r } := by
  rcases execLoad_cases a s with ⟨-, e⟩ | ⟨-, -, e⟩ | ⟨-, -, e⟩
  · cases e.symm.trans h
  · cases e.symm.trans h
    exact ⟨_, _, _, rfl⟩
  · cases e.symm.trans h
    obtain ⟨c, n, r, hr, -⟩ := loadRejected_cases a s
    exact ⟨c, n, r, hr⟩

/-- A SAVE that completes writes the buffer and responds. -/
theorem exec_save_next {a : Word} {s t : State} (h : exec (.save a) s = .next t) :
    ∃ m r, t = { s with buf := m, response := some r } := by
  rcases execSave_cases a s with ⟨-, e⟩ | ⟨-, e⟩
  · cases e.symm.trans h
  · cases e.symm.trans h
    exact ⟨_, _, rfl⟩

/-- SET writes `pos`, counts draws and responds. -/
theorem exec_set_next {d : Word} {s t : State} (h : exec (.set d) s = .next t) :
    ∃ p n r, t = { s with pos := p, draws := n, response := some r } := by
  rcases execSet_cases d s with ⟨-, e⟩ | ⟨-, e⟩ <;>
    · cases e.symm.trans h
      exact ⟨_, _, _, rfl⟩

/-! ### Who writes which field -/

/-- Each field of the block is as before, or the command is one of its writers. -/
theorem exec_writers {i : Instr} {s t : State} (h : exec i s = .next t) :
    (t.cal = s.cal ∨ i = .init ∨ (∃ a, i = .load a) ∨ ∃ k w, i = .wrcal k w) ∧
    (t.pos = s.pos ∨ i = .init ∨ (∃ d, i = .set d) ∨ ∃ w, i = .setRaw w) ∧
    (t.enableOutput = s.enableOutput ∨ (i = .init ∧ t.enableOutput = false) ∨ (i = .enable ∧ t.enableOutput = true) ∨
      (i = .disable ∧ t.enableOutput = false)) := by
  cases i with
  | load a => obtain ⟨c, n, r, rfl⟩ := exec_load_next h; simp
  | save a => obtain ⟨m, r, rfl⟩ := exec_save_next h; simp
  | set d => obtain ⟨p, n, r, rfl⟩ := exec_set_next h; simp
  | init | enable | disable | setRaw | getPwm | getUpdatePeriod | rdcal | wrcal | getEnable =>
    simp only [exec_init, exec_enable, exec_disable, exec_setRaw, exec_getPwm, exec_getUpdatePeriod, exec_rdcal, exec_wrcal,
      exec_getEnable, Host.Outcome.next.injEq] at h
    subst h
    simp

/-- Settles O44, from the writers of each field. -/
theorem onlyInitLoadAndWrcalWriteTheCalibration : Obligations.OnlyInitLoadAndWrcalWriteTheCalibration := by
  intro i s t h hne
  obtain ⟨hcal, -, -⟩ := exec_writers h
  exact hcal.resolve_left hne

/-- Settles O45, from the writers of each field. -/
theorem onlyInitSetAndSetRawWritePos : Obligations.OnlyInitSetAndSetRawWritePos := by
  intro i s t h hne
  obtain ⟨-, hpos, -⟩ := exec_writers h
  exact hpos.resolve_left hne

/-- Settles O46, from the writers of each field. -/
theorem onlyInitEnableAndDisableWriteTheFlag : Obligations.OnlyInitEnableAndDisableWriteTheFlag := by
  intro i s t h hne
  obtain ⟨-, -, hflag⟩ := exec_writers h
  exact hflag.resolve_left hne

/-- Settles O8: INIT leaves what `State.toDefaults` holds, which are the values of reset. -/
theorem resetAndInitLeaveTheDefaults : Obligations.ResetAndInitLeaveTheDefaults :=
  ⟨⟨rfl, rfl, rfl⟩, fun s => ⟨_, exec_init s, rfl, rfl, rfl⟩⟩

end Sys2Proof.Machine
end

section
/-! SUPPORT. The flag gates nothing (10_state.md R25): every operation but GET_ENABLE commutes with a change of the flag, so two runs
that differ in it keep step. -/

namespace Sys2Proof.Machine

/-! ### States and outcomes that agree but for the flag -/

/-- The first state is the second with the flag changed. -/
theorem setEnable_of_sameButFlag {s t : State} (h : sameButFlag s t) : t.setEnable s.enableOutput = s := h

/-- Two outcomes that agree but for the flag are of one kind. -/
theorem outcomesSameButFlag_cases {o p : Host.Outcome State Fault Refusal} (h : outcomesSameButFlag o p) :
    (∃ s t, o = .next s ∧ p = .next t ∧ sameButFlag s t) ∨ (∃ r, o = .fault r ∧ p = .fault r) ∨
      (∃ r, o = .refused r ∧ p = .refused r) := by
  cases o <;> cases p <;> simp_all [outcomesSameButFlag]

/-! ### One command, one step -/

/-- What a LOAD of no record draws and answers does not depend on the flag. -/
theorem loadRejected_setEnable (a : Word) (s : State) (b : Bool) :
    loadRejected a (s.setEnable b) = (loadRejected a s).setEnable b := by
  cases hn : s.params.noncanonicalLoad with
  | reject =>
    simp only [loadRejected, State.setEnable_params, hn]
    rfl
  | any =>
    simp only [loadRejected, State.setEnable_params, hn, State.drawn, State.setEnable_draws]
    by_cases hd : Config.freeValue 1 s.draws = 1
    · simp only [hd]
      rfl
    · simp only [hd]
      rfl

theorem execLoad_sameButFlag (a : Word) (s : State) (b : Bool) :
    outcomesSameButFlag (execLoad a (s.setEnable b)) (execLoad a s) := by
  simp only [execLoad, State.setEnable_params, State.setEnable_buf, loadRejected_setEnable]
  by_cases hw : windowAdmitted s.params.admitted a = true
  · by_cases hc : canonical (Memory.readBytes s.buf a.toNat recordLength) = true
    · simp only [hw, hc]
      rfl
    · simp only [hw, hc]
      rfl
  · simp only [hw]
    rfl

theorem execSave_sameButFlag (a : Word) (s : State) (b : Bool) :
    outcomesSameButFlag (execSave a (s.setEnable b)) (execSave a s) := by
  simp only [execSave, State.setEnable_params]
  by_cases hw : windowAdmitted s.params.admitted a = true
  · simp only [hw]
    rfl
  · simp only [hw]
    rfl

theorem execSet_sameButFlag (d : Word) (s : State) (b : Bool) :
    outcomesSameButFlag (execSet d (s.setEnable b)) (execSet d s) := by
  rcases execSet_cases d s with ⟨hd, e⟩ | ⟨hd, e⟩ <;> rcases execSet_cases d (s.setEnable b) with ⟨hd', e'⟩ | ⟨hd', e'⟩
  · rw [e, e']
    rfl
  · exact absurd (hd.symm.trans hd') Bool.noConfusion
  · exact absurd (hd.symm.trans hd') Bool.noConfusion
  · rw [e, e']
    rfl

/-- GET_ENABLE is the only command that reads the flag. -/
theorem exec_sameButFlag {i : Instr} (hi : i ≠ .getEnable) (s : State) (b : Bool) :
    outcomesSameButFlag (exec i (s.setEnable b)) (exec i s) := by
  cases i with
  | getEnable => exact absurd rfl hi
  | load a => exact execLoad_sameButFlag a s b
  | save a => exact execSave_sameButFlag a s b
  | set d => exact execSet_sameButFlag d s b
  | init | enable | disable | setRaw | getPwm | getUpdatePeriod | rdcal | wrcal => rfl

theorem stepFrame_sameButFlag {f : Frame} (hf : (Input.frame f).readsFlag = false) (s : State) (b : Bool) :
    outcomesSameButFlag (stepFrame f (s.setEnable b)) (stepFrame f s) := by
  cases hd : decode f with
  | error e =>
    rw [stepFrame_error hd, stepFrame_error hd]
    rfl
  | ok i =>
    rw [stepFrame_ok hd, stepFrame_ok hd]
    refine exec_sameButFlag ?_ s b
    rintro rfl
    simp [Input.readsFlag, hd] at hf

/-- One step of the two runs, by the input it takes. -/
theorem step_sameButFlag (s : State) (b : Bool) (h : s.inputs.all (fun x => !x.readsFlag) = true) :
    outcomesSameButFlag (step (s.setEnable b)) (step s) := by
  cases hi : s.inputs with
  | nil =>
    rw [step_idle hi, step_idle (s := s.setEnable b) hi]
    rfl
  | cons x rest =>
    simp only [hi, List.all_cons, Bool.and_eq_true, Bool.not_eq_true'] at h
    cases x with
    | frame f =>
      rw [step_frame hi, step_frame (s := s.setEnable b) hi]
      obtain ⟨hf, -⟩ := h
      exact stepFrame_sameButFlag hf (s.setInputs rest) b
    | reset =>
      rw [step_reset hi, step_reset (s := s.setEnable b) hi]
      rfl
    | store a v =>
      rw [step_store hi, step_store (s := s.setEnable b) hi]
      rfl

/-! ### Runs -/

theorem stepFrame_inputs {f : Frame} {s t : State} (h : stepFrame f s = .next t) : t.inputs = s.inputs := by
  cases hd : decode f with
  | error e =>
    rw [stepFrame_error hd, Host.Outcome.next.injEq] at h
    subst h
    rfl
  | ok i =>
    rw [stepFrame_ok hd] at h
    obtain ⟨hin, -⟩ := exec_ports h
    exact hin

/-- A step that does not stop takes the oldest input and presents no other. -/
theorem step_inputs {s t : State} (h : step s = .next t) : t.inputs = s.inputs.tail := by
  cases hi : s.inputs with
  | nil =>
    rw [step_idle hi, Host.Outcome.next.injEq] at h
    subst h
    exact hi
  | cons x rest =>
    cases x with
    | frame f =>
      rw [step_frame hi] at h
      exact stepFrame_inputs h
    | reset =>
      rw [step_reset hi, Host.Outcome.next.injEq] at h
      subst h
      rfl
    | store a v =>
      rw [step_store hi, Host.Outcome.next.injEq] at h
      subst h
      rfl

/-- A run that is refused at its first step. -/
theorem run_refused {s : State} {r : Refusal} (h : step s = .refused r) (k : Nat) :
    Host.Core.run Sys2Proof.core (k + 1) s = .refused r := by
  have h' : Sys2Proof.core.step s = .refused r := h
  exact (coreRun_succ Sys2Proof.core k s).trans (by rw [h'])

/-- Settles O50, by induction on the number of steps: the two runs stop alike or step to states that again agree but for the flag. -/
theorem theFlagGatesNothing : Obligations.TheFlagGatesNothing := by
  intro k
  induction k with
  | zero => exact fun s t hst _ => hst
  | succ k ih =>
    intro s t hst hin
    have hstep : outcomesSameButFlag (step s) (step t) := by
      rw [← setEnable_of_sameButFlag hst] at hin ⊢
      exact step_sameButFlag t _ hin
    obtain ⟨s', t', hs, ht, hst'⟩ | ⟨r, hs, ht⟩ | ⟨r, hs, ht⟩ := outcomesSameButFlag_cases hstep
    · rw [run_next hs, run_next ht]
      refine ih s' t' hst' ?_
      rw [step_inputs hs]
      exact List.all_eq_true.2 fun x hx => List.all_eq_true.1 hin x (List.mem_of_mem_tail hx)
    · rw [run_fault hs, run_fault ht]
      rfl
    · rw [run_refused hs, run_refused ht]
      rfl

end Sys2Proof.Machine
end

section
/-! SUPPORT. What a step of a system can do (60_exceptions.md R183): nothing, where the number names no block, or one step of that
block over the system's buffer and counter (log 9). -/

namespace Sys2Proof.Machine

/-- A block meets the same buffer and counter in two systems that agree on them. -/
theorem System.focus_congr {S S' : System} (hb : S.buf = S'.buf) (hd : S.draws = S'.draws) (s : State) :
    S.focus s = S'.focus s := by
  simp only [System.focus, hb, hd]

theorem System.step_absent {S : System} {k : Nat} (h : S.instances[k]? = none) : S.step k = .next S := by
  simp only [System.step, h]

theorem System.step_present {S : System} {k : Nat} {s t : State} (h : S.instances[k]? = some s)
    (hs : Machine.step (S.focus s) = .next t) : S.step k = .next (S.update k t) := by
  simp only [System.step, h, hs]

/-- Everything a step of a system that does not stop can do. -/
theorem System.step_next {S T : System} {k : Nat} (h : S.step k = .next T) :
    (S.instances[k]? = none ∧ T = S) ∨
    ∃ s t, S.instances[k]? = some s ∧ Machine.step (S.focus s) = .next t ∧ T = S.update k t := by
  cases hk : S.instances[k]? with
  | none =>
    rw [System.step_absent hk, Host.Outcome.next.injEq] at h
    exact .inl ⟨rfl, h.symm⟩
  | some s =>
    cases hs : Machine.step (S.focus s) with
    | next t =>
      rw [System.step_present hk hs, Host.Outcome.next.injEq] at h
      exact .inr ⟨s, t, rfl, hs, h.symm⟩
    | fault r => simp [System.step, hk, hs] at h
    | refused r => simp [System.step, hk, hs] at h

theorem System.update_instances_ne (S : System) {k j : Nat} (t : State) (h : j ≠ k) :
    (S.update k t).instances[j]? = S.instances[j]? :=
  List.getElem?_set_ne h.symm

theorem System.update_instances_self {S : System} {k : Nat} {s : State} (t : State) (h : S.instances[k]? = some s) :
    (S.update k t).instances[k]? = some t := by
  obtain ⟨hk, -⟩ := List.getElem?_eq_some_iff.1 h
  exact List.getElem?_set_self hk

/-- Settles O57, by what a step of a system can do. -/
theorem instancesDoNotInterfere : Obligations.InstancesDoNotInterfere := by
  constructor
  · intro S T k j h hj
    obtain ⟨-, rfl⟩ | ⟨s, t, -, -, rfl⟩ := System.step_next h
    · rfl
    · exact S.update_instances_ne t hj
  · intro S S' T k hb hd hk h
    obtain ⟨hn, rfl⟩ | ⟨s, t, hs, ht, rfl⟩ := System.step_next h
    · exact ⟨S', System.step_absent (hk ▸ hn), hb.symm, hd.symm, hk.symm⟩
    · have hs' : S'.instances[k]? = some s := hk ▸ hs
      rw [System.focus_congr hb hd] at ht
      refine ⟨S'.update k t, System.step_present hs' ht, rfl, rfl, ?_⟩
      rw [System.update_instances_self t hs', System.update_instances_self t hs]

end Sys2Proof.Machine
end

section
/-! SUPPORT. What writes the calibration buffer (20_memory.md R41, R47, R48): SAVE writes its record, the storage collaborator one
byte, nothing else writes. Each is a row of bytes inside the 32-bit space, so every step keeps the canonical form. -/

namespace Sys2Proof.Machine

/-! ### The buffer after a command -/

/-- A command leaves the buffer as it was, or it is a SAVE of an admitted window and writes its record there. -/
theorem exec_buf {i : Instr} {s t : State} (h : exec i s = .next t) :
    t.buf = s.buf ∨ ∃ a, i = .save a ∧ windowAdmitted s.params.admitted a = true ∧
      t.buf = Memory.writeBytes s.buf a.toNat (encodeRecord s.cal) := by
  cases i with
  | save a =>
    rcases execSave_cases a s with ⟨-, e⟩ | ⟨hw, e⟩
    · cases e.symm.trans h
    · cases e.symm.trans h
      exact .inr ⟨a, rfl, hw, rfl⟩
  | load a => obtain ⟨c, n, r, rfl⟩ := exec_load_next h; exact .inl rfl
  | set d => obtain ⟨p, n, r, rfl⟩ := exec_set_next h; exact .inl rfl
  | init | enable | disable | setRaw | getPwm | getUpdatePeriod | rdcal | wrcal | getEnable =>
    cases h
    exact .inl rfl

/-- Settles O47: a SAVE writes 18 bytes from its address up, and a byte outside them reads as before. -/
theorem onlySaveWritesTheBufferAndOnlyItsWindow : Obligations.OnlySaveWritesTheBufferAndOnlyItsWindow := by
  intro i s t b h hne
  obtain hbuf | ⟨a, rfl, -, hbuf⟩ := exec_buf h
  · exact absurd (by rw [hbuf]) hne
  · refine ⟨a, rfl, ?_⟩
    by_contra hout
    refine hne ?_
    rw [hbuf, Memory.read_writeBytes_outside]
    simp only [encodeRecord_length, recordLength]
    omega

/-! ### The buffer after a step -/

/-- The second buffer is the first with a row of bytes written, or none, that ends inside the 32-bit space. -/
def writesInsideSpace (m m' : Memory) : Prop := ∃ a bs, a + bs.length ≤ 2 ^ 32 ∧ m' = Memory.writeBytes m a bs

theorem writesInsideSpace_refl (m : Memory) : writesInsideSpace m m := ⟨0, [], by decide, rfl⟩

theorem writesInsideSpace_write (m : Memory) (a : Word) (v : Byte) :
    writesInsideSpace m (Memory.write m a.toNat v) := ⟨a.toNat, [v], a.isLt, rfl⟩

/-- The record of an admitted window does not run past the top of the space (20_memory.md R44). -/
theorem writesInsideSpace_record {rs : List Region} {a : Word} (h : windowAdmitted rs a = true) (m : Memory)
    (c : Calibration) : writesInsideSpace m (Memory.writeBytes m a.toNat (encodeRecord c)) := by
  obtain ⟨hwrap, -⟩ := (windowAdmitted_iff rs a).1 h
  refine ⟨a.toNat, encodeRecord c, ?_, rfl⟩
  simp only [encodeRecord_length, recordLength]
  omega

theorem writesInsideSpace.wf {m m' : Memory} (h : writesInsideSpace m m') (hm : Memory.wf m) : Memory.wf m' := by
  obtain ⟨a, bs, hlen, rfl⟩ := h
  exact Memory.writeBytes_wf hm a bs hlen

theorem exec_writesInsideSpace {i : Instr} {s t : State} (h : exec i s = .next t) : writesInsideSpace s.buf t.buf := by
  obtain hbuf | ⟨a, -, hw, hbuf⟩ := exec_buf h
  · rw [hbuf]; exact writesInsideSpace_refl s.buf
  · rw [hbuf]; exact writesInsideSpace_record hw s.buf s.cal

theorem stepFrame_writesInsideSpace {f : Frame} {s t : State} (h : stepFrame f s = .next t) :
    writesInsideSpace s.buf t.buf := by
  cases hd : decode f with
  | error e =>
    rw [stepFrame_error hd] at h
    cases h
    exact writesInsideSpace_refl s.buf
  | ok i =>
    rw [stepFrame_ok hd] at h
    exact exec_writesInsideSpace h

theorem step_writesInsideSpace {s t : State} (h : step s = .next t) : writesInsideSpace s.buf t.buf := by
  cases hi : s.inputs with
  | nil =>
    rw [step_idle hi] at h
    cases h
    exact writesInsideSpace_refl s.buf
  | cons x rest =>
    cases x with
    | frame f =>
      rw [step_frame hi] at h
      exact stepFrame_writesInsideSpace (s := s.setInputs rest) h
    | reset =>
      rw [step_reset hi] at h
      cases h
      exact writesInsideSpace_refl s.buf
    | store a v =>
      rw [step_store hi] at h
      cases h
      exact writesInsideSpace_write s.buf a v

/-- Settles O43: whatever the input, a step writes a row of bytes inside the space, and such a write keeps the canonical form. -/
theorem stepKeepsTheInvariant : Obligations.StepKeepsTheInvariant :=
  fun _ _ hs h => (step_writesInsideSpace h).wf hs

/-- Settles O42: an empty buffer is canonical. -/
theorem resetMeetsTheInvariant : Obligations.ResetMeetsTheInvariant :=
  ⟨List.Pairwise.nil, fun _ hc => absurd hc List.not_mem_nil⟩

/-- Settles O53, by the law of a read after a write. -/
theorem storageWritesOneByte : Obligations.StorageWritesOneByte := by
  intro s a v rest hi
  refine ⟨Memory.write s.buf a.toNat v, step_store hi, ?_, fun b hb => ?_⟩
  · rw [Memory.read_write, if_pos rfl]
  · rw [Memory.read_write, if_neg hb]

/-- Settles O54: the block waits, and waiting only takes the response off the port. -/
theorem nothingPresentedChangesNothing : Obligations.NothingPresentedChangesNothing := fun _ hi => step_idle hi

end Sys2Proof.Machine
end

section
/-! SUPPORT. The windows that are not admitted (20_memory.md R44): the model's check says what the rule says, and LOAD and SAVE fault
exactly where it fails (60_exceptions.md R172). -/

namespace Sys2Proof.Machine

theorem bufAdmit_iff (rs : List Region) (a : Nat) :
    bufAdmit rs a = true ↔ ∃ r ∈ rs, r.first ≤ a ∧ a ≤ r.last := by
  simp only [bufAdmit, List.any_eq_true, Bool.and_eq_true, decide_eq_true_eq]

/-- The model's window check is R44 in its own words. -/
theorem windowAdmitted_iff_admittedAt (rs : List Region) (a : Word) :
    windowAdmitted rs a = true ↔ admittedAt rs a := by
  simp only [windowAdmitted_iff, bufAdmit_iff, admittedAt]
  norm_num

theorem exec_load_fault_iff (a : Word) (s : State) :
    exec (.load a) s = .fault (.bufferWindow a) ↔ windowAdmitted s.params.admitted a = false := by
  change execLoad a s = _ ↔ _
  rcases execLoad_cases a s with ⟨hw, e⟩ | ⟨hw, -, e⟩ | ⟨hw, -, e⟩ <;> simp [hw, e]

theorem exec_save_fault_iff (a : Word) (s : State) :
    exec (.save a) s = .fault (.bufferWindow a) ↔ windowAdmitted s.params.admitted a = false := by
  change execSave a s = _ ↔ _
  rcases execSave_cases a s with ⟨hw, e⟩ | ⟨hw, e⟩ <;> simp [hw, e]

/-- Settles O32: both commands fault exactly where the window check fails, and the check is R44. -/
theorem inadmissibleWindowsFault : Obligations.InadmissibleWindowsFault := by
  intro a s
  rw [exec_load_fault_iff, exec_save_fault_iff, ← windowAdmitted_iff_admittedAt, Bool.not_eq_true]
  exact ⟨.rfl, .rfl⟩

end Sys2Proof.Machine
end

section
/-! SUPPORT. The observer port (20_memory.md R50, R51): a command other than INIT changes at most one of the three outputs, and a
mixture of two samples that differ in one output is one of the two. -/

namespace Sys2Proof.Machine

/-- The period fits the port: 255 * 1000 is below `2 ^ 32` (42_mapper.md R142). -/
theorem Calibration.periodTicks_toNat (c : Calibration) : c.periodTicks.toNat = c.updatePeriod.toNat * 1000 := by
  unfold Calibration.periodTicks
  bv_omega

/-- Settles O55. -/
theorem observerPortPresentsTheFields : Obligations.ObserverPortPresentsTheFields :=
  fun s => ⟨rfl, s.cal.periodTicks_toNat, rfl, exec_getUpdatePeriod s⟩

/-- A sample during a command, output by output (20_memory.md R51). -/
theorem observableDuring_iff (s t : State) (o : Observation) :
    observableDuring s t o = true ↔
      (o.width = s.pos ∨ o.width = t.pos) ∧ (o.period = s.cal.periodTicks ∨ o.period = t.cal.periodTicks) ∧
        (o.enable = s.enableOutput ∨ o.enable = t.enableOutput) := by
  simp only [observableDuring, Bool.and_eq_true, Bool.or_eq_true, beq_iff_eq, and_assoc]

/-- At least two of the three sources of the observer port are the same in both states. -/
def atMostOneOutputChanges (s t : State) : Prop :=
  (t.pos = s.pos ∧ t.enableOutput = s.enableOutput) ∨ (t.cal = s.cal ∧ t.enableOutput = s.enableOutput) ∨
    (t.cal = s.cal ∧ t.pos = s.pos)

/-- No two outputs have a writer in common but INIT. -/
theorem exec_atMostOneOutputChanges {i : Instr} {s t : State} (hi : i ≠ .init) (h : exec i s = .next t) :
    atMostOneOutputChanges s t := by
  obtain ⟨hcal, hpos, hflag⟩ := exec_writers h
  rcases hcal with hcal | rfl | ⟨a, rfl⟩ | ⟨k, w, rfl⟩
  · rcases hpos with hpos | rfl | ⟨d, rfl⟩ | ⟨w, rfl⟩
    · exact .inr (.inr ⟨hcal, hpos⟩)
    · exact absurd rfl hi
    · exact .inr (.inl ⟨hcal, by simpa using hflag⟩)
    · exact .inr (.inl ⟨hcal, by simpa using hflag⟩)
  · exact absurd rfl hi
  · exact .inl ⟨by simpa using hpos, by simpa using hflag⟩
  · exact .inl ⟨by simpa using hpos, by simpa using hflag⟩

/-- Where at most one output changes there is nothing to mix. -/
theorem sample_of_atMostOneOutputChanges {s t : State} {o : Observation} (h : atMostOneOutputChanges s t)
    (ho : observableDuring s t o = true) : o = s.observe ∨ o = t.observe := by
  obtain ⟨width, period, enable⟩ := o
  obtain ⟨hw, hp, he⟩ := (observableDuring_iff s t _).1 ho
  simp only [State.observe, Observation.mk.injEq]
  rcases h with ⟨hpos, hen⟩ | ⟨hcal, hen⟩ | ⟨hcal, hpos⟩
  · simp only [hpos, hen, or_self] at hw he ⊢
    exact hp.imp (⟨hw, ·, he⟩) (⟨hw, ·, he⟩)
  · simp only [hcal, hen, or_self] at hp he ⊢
    exact hw.imp (⟨·, hp, he⟩) (⟨·, hp, he⟩)
  · simp only [hcal, hpos, or_self] at hw hp ⊢
    exact he.imp (⟨hw, hp, ·⟩) (⟨hw, hp, ·⟩)

/-- An INIT from `pos` 0 with the flag set can be seen with the old width and the new flag. -/
theorem init_sample_mixes :
    ∃ (s t : State) (o : Observation), exec .init s = .next t ∧ observableDuring s t o = true ∧
      o ≠ s.observe ∧ o ≠ t.observe :=
  ⟨{ State.reset with pos := 0, enableOutput := true }, _, ⟨0, 200000, false⟩, exec_init _, by decide, by decide, by decide⟩

/-- Settles O56: a command other than INIT changes at most one output; INIT changes `pos` and the flag. -/
theorem observerSamplesMixOnlyDuringInit : Obligations.ObserverSamplesMixOnlyDuringInit :=
  ⟨fun _ _ _ _ hi h ho => sample_of_atMostOneOutputChanges (exec_atMostOneOutputChanges hi h) ho, init_sample_mixes⟩

end Sys2Proof.Machine
end

section
/-! SUPPORT. The frame codec (30_encoding.md R60 to R67): the decoder answers exactly the well-formed command whose frame it is
given, and the frames of well-formed commands are the legal ones, field by field. -/

namespace Sys2Proof

/-! ### The two round trips -/

/-- The frame of a command, rebuilt from what its four fields are known to hold. -/
theorem Frame.ofFields_eq {f : Frame} {o s : BitVec 8} {m : Half} {d : Word} (ho : Frame.opc f = o) (hs : Frame.sel f = s)
    (hm : Frame.imm16 f = m) (hd : Frame.d32 f = d) : Frame.ofFields o s m d = f := by
  rw [← ho, ← hs, ← hm, ← hd, Frame.ofFields_fields]

theorem decodeRdcal_ofFields (o : BitVec 8) (k : CalField) :
    decodeRdcal (Frame.ofFields o k.sel 0 0) = .ok (.rdcal k) := by
  simp [decodeRdcal]

theorem decodeWrcal_ofFields (o : BitVec 8) {k : CalField} {w : Half} (h : k.fits w = true) :
    decodeWrcal (Frame.ofFields o k.sel w 0) = .ok (.wrcal k w) := by
  simp [decodeWrcal, h]

/-- Settles O4, command by command: the opcode picks the decoder's case, the reserved fields are zero, the operands are read back. -/
theorem decodeOfEncodeIsTheCommand : Obligations.DecodeOfEncodeIsTheCommand := by
  intro i hi
  cases i with
  | rdcal k => simpa [encode, decode] using decodeRdcal_ofFields 0x0A k
  | wrcal k w => simpa [encode, decode] using decodeWrcal_ofFields 0x0B hi
  | init | enable | disable | set | setRaw | getPwm | getUpdatePeriod | load | save | getEnable => simp [encode, decode]

/-- Settles O5, by what the decoder can answer: each case names all four fields, so the frame is rebuilt from them. -/
theorem encodeOfDecodeIsTheFrame : Obligations.EncodeOfDecodeIsTheFrame := by
  intro f i h
  rcases decode_ok h with ⟨ho, hs, hm, hd, rfl⟩ | ⟨ho, hs, hm, hd, rfl⟩ | ⟨ho, hs, hm, hd, rfl⟩ | ⟨ho, hs, hm, rfl⟩ |
    ⟨ho, hs, hd, rfl⟩ | ⟨ho, hs, hm, hd, rfl⟩ | ⟨ho, hs, hm, hd, rfl⟩ | ⟨ho, hs, hm, rfl⟩ | ⟨ho, hs, hm, rfl⟩ |
    ⟨ho, k, hs, hm, hd, rfl⟩ | ⟨ho, k, hs, hw, hd, rfl⟩ | ⟨ho, hs, hm, hd, rfl⟩
  · exact ⟨rfl, Frame.ofFields_eq ho hs hm hd⟩
  · exact ⟨rfl, Frame.ofFields_eq ho hs hm hd⟩
  · exact ⟨rfl, Frame.ofFields_eq ho hs hm hd⟩
  · exact ⟨rfl, Frame.ofFields_eq ho hs hm rfl⟩
  · exact ⟨rfl, Frame.ofFields_eq ho hs rfl hd⟩
  · exact ⟨rfl, Frame.ofFields_eq ho hs hm hd⟩
  · exact ⟨rfl, Frame.ofFields_eq ho hs hm hd⟩
  · exact ⟨rfl, Frame.ofFields_eq ho hs hm rfl⟩
  · exact ⟨rfl, Frame.ofFields_eq ho hs hm rfl⟩
  · exact ⟨rfl, Frame.ofFields_eq ho hs hm hd⟩
  · exact ⟨hw, Frame.ofFields_eq ho hs rfl hd⟩
  · exact ⟨rfl, Frame.ofFields_eq ho hs hm hd⟩

/-- The decoder is the inverse of the encoder on well-formed commands. -/
theorem decode_eq_ok_iff {f : Frame} {i : Instr} : decode f = .ok i ↔ i.wellFormed = true ∧ encode i = f := by
  constructor
  · exact encodeOfDecodeIsTheFrame f i
  · rintro ⟨hi, rfl⟩
    exact decodeOfEncodeIsTheCommand i hi

/-! ### The legal frames -/

/-- R62 and R63 on the four fields of a frame. -/
def legalFields (o s : BitVec 8) (m : Half) (d : Word) : Prop :=
  (1 ≤ o.toNat ∧ o.toNat ≤ 12) ∧
  (o ≠ 0x0A → o ≠ 0x0B → s = 0) ∧
  (o ≠ 0x05 → o ≠ 0x0B → m = 0) ∧
  (o ≠ 0x04 → o ≠ 0x08 → o ≠ 0x09 → d = 0) ∧
  (o = 0x0A ∨ o = 0x0B → s.toNat ≤ 5) ∧
  (o = 0x0B → s = 5 → m.extractLsb' 8 8 = 0)

/-- The high byte of IMM16 is bits 47:40. -/
theorem Frame.imm16_high (f : Frame) : (Frame.imm16 f).extractLsb' 8 8 = f.extractLsb' 40 8 := by
  ext i hi
  simp only [Frame.imm16]
  grind

theorem legalFrame_iff (f : Frame) :
    Machine.legalFrame f ↔ legalFields (Frame.opc f) (Frame.sel f) (Frame.imm16 f) (Frame.d32 f) := by
  unfold legalFields
  rw [Frame.imm16_high]
  exact Iff.rfl

theorem legalFrame_ofFields {o s : BitVec 8} {m : Half} {d : Word} :
    Machine.legalFrame (Frame.ofFields o s m d) ↔ legalFields o s m d := by
  rw [legalFrame_iff, Frame.ofFields_opc, Frame.ofFields_sel, Frame.ofFields_imm16, Frame.ofFields_d32]

theorem CalField.sel_le (k : CalField) : k.sel.toNat ≤ 5 := by cases k <;> decide

/-- Every selector up to 5 names a field (R65). -/
theorem CalField.exists_sel_eq {s : BitVec 8} (h : s.toNat ≤ 5) : ∃ k : CalField, k.sel = s := by
  have hs : s = 0 ∨ s = 1 ∨ s = 2 ∨ s = 3 ∨ s = 4 ∨ s = 5 := by bv_omega
  rcases hs with rfl | rfl | rfl | rfl | rfl | rfl
  · exact ⟨.gainPos, rfl⟩
  · exact ⟨.gainNeg, rfl⟩
  · exact ⟨.zero, rfl⟩
  · exact ⟨.min, rfl⟩
  · exact ⟨.max, rfl⟩
  · exact ⟨.updatePeriod, rfl⟩

/-- The one check on WRCAL's value, by the selector (R63). -/
theorem CalField.fits_iff (k : CalField) (w : Half) : k.fits w = true ↔ (k.sel = 5 → w.extractLsb' 8 8 = 0) := by
  cases k <;> simp [CalField.fits, CalField.sel]

theorem legalFrame_encode {i : Instr} (hi : i.wellFormed = true) : Machine.legalFrame (encode i) := by
  cases i with
  | rdcal k => exact legalFrame_ofFields.2 (by simp [legalFields, k.sel_le])
  | wrcal k w =>
    have hw : k.sel = 5 → w.extractLsb' 8 8 = 0 := (k.fits_iff w).1 hi
    exact legalFrame_ofFields.2 (by simpa [legalFields, k.sel_le] using hw)
  | init | enable | disable | set | setRaw | getPwm | getUpdatePeriod | load | save | getEnable =>
    exact legalFrame_ofFields.2 (by simp [legalFields])

/-- A legal frame is the frame of the command its opcode names (R62). -/
theorem exists_encode_of_legalFrame {f : Frame} (h : Machine.legalFrame f) :
    ∃ i : Instr, i.wellFormed = true ∧ encode i = f := by
  obtain ⟨hopc, hsel, himm, hd32, hk, hw⟩ := (legalFrame_iff f).1 h
  have ho : f.opc = 0x01 ∨ f.opc = 0x02 ∨ f.opc = 0x03 ∨ f.opc = 0x04 ∨ f.opc = 0x05 ∨ f.opc = 0x06 ∨ f.opc = 0x07 ∨
      f.opc = 0x08 ∨ f.opc = 0x09 ∨ f.opc = 0x0A ∨ f.opc = 0x0B ∨ f.opc = 0x0C := by bv_omega
  -- With the opcode known, R63 leaves of each field's rule either what the field holds or nothing.
  rcases ho with ho | ho | ho | ho | ho | ho | ho | ho | ho | ho | ho | ho <;>
    simp only [ho, BitVec.ofNat_eq_ofNat, ne_eq, BitVec.reduceEq, not_false_eq_true, forall_const, true_or, or_true]
      at hsel himm hd32 hk hw
  · exact ⟨.init, rfl, Frame.ofFields_eq ho hsel himm hd32⟩
  · exact ⟨.enable, rfl, Frame.ofFields_eq ho hsel himm hd32⟩
  · exact ⟨.disable, rfl, Frame.ofFields_eq ho hsel himm hd32⟩
  · exact ⟨.set _, rfl, Frame.ofFields_eq ho hsel himm rfl⟩
  · exact ⟨.setRaw _, rfl, Frame.ofFields_eq ho hsel rfl hd32⟩
  · exact ⟨.getPwm, rfl, Frame.ofFields_eq ho hsel himm hd32⟩
  · exact ⟨.getUpdatePeriod, rfl, Frame.ofFields_eq ho hsel himm hd32⟩
  · exact ⟨.load _, rfl, Frame.ofFields_eq ho hsel himm rfl⟩
  · exact ⟨.save _, rfl, Frame.ofFields_eq ho hsel himm rfl⟩
  · obtain ⟨k, hs⟩ := CalField.exists_sel_eq hk
    exact ⟨.rdcal k, rfl, Frame.ofFields_eq ho hs.symm himm hd32⟩
  · obtain ⟨k, hs⟩ := CalField.exists_sel_eq hk
    exact ⟨.wrcal k _, (k.fits_iff _).2 (hs ▸ hw), Frame.ofFields_eq ho hs.symm rfl hd32⟩
  · exact ⟨.getEnable, rfl, Frame.ofFields_eq ho hsel himm hd32⟩

/-- R63 and R64: the decoder answers a command on the legal frames and on no other. -/
theorem decode_ok_iff_legalFrame (f : Frame) : (∃ i, decode f = .ok i) ↔ Machine.legalFrame f := by
  constructor
  · rintro ⟨i, h⟩
    obtain ⟨hi, rfl⟩ := decode_eq_ok_iff.1 h
    exact legalFrame_encode hi
  · intro h
    obtain ⟨i, hi⟩ := exists_encode_of_legalFrame h
    exact ⟨i, decode_eq_ok_iff.2 hi⟩

theorem decode_error_of_not_legalFrame {f : Frame} (h : ¬ Machine.legalFrame f) : ∃ e, decode f = .error e := by
  cases hd : decode f with
  | error e => exact ⟨e, rfl⟩
  | ok i => exact absurd ((decode_ok_iff_legalFrame f).1 ⟨i, hd⟩) h

end Sys2Proof
end

section
/-! SUPPORT. What a step does with a frame (30_encoding.md R64, R66, R67): a legal one runs as its command, any other is answered
ILLEGAL, and each has one response. -/

namespace Sys2Proof.Machine

/-- Settles O3: the decoder answers an error on a frame that is not legal, and the step rejects it. -/
theorem illegalFramesAreAnsweredAndWriteNothing : Obligations.IllegalFramesAreAnsweredAndWriteNothing := by
  refine ⟨decode_ok_iff_legalFrame, fun s f rest hin hf => ?_⟩
  obtain ⟨e, he⟩ := decode_error_of_not_legalFrame hf
  rw [step_frame hin, stepFrame_error he]
  rfl

/-- Settles O41. -/
theorem stepRunsTheDecodedCommand : Obligations.StepRunsTheDecodedCommand := by
  intro s f rest i hin hd
  rw [step_frame hin, stepFrame_ok hd]

theorem stepFrame_response {f : Frame} {s t : State} (h : stepFrame f s = .next t) : t.response.isSome = true := by
  cases hd : decode f with
  | error e =>
    rw [stepFrame_error hd] at h
    cases h
    rfl
  | ok i =>
    rw [stepFrame_ok hd] at h
    obtain ⟨-, -, -, hr⟩ := exec_ports h
    exact hr

/-- A step that does not stop answers a frame, and only a frame. -/
theorem step_response {s t : State} (h : step s = .next t) :
    t.response.isSome = true ↔ ∃ f rest, s.inputs = .frame f :: rest := by
  cases hi : s.inputs with
  | nil =>
    rw [step_idle hi] at h
    cases h
    simp [State.idle]
  | cons x rest =>
    cases x with
    | frame f =>
      rw [step_frame hi] at h
      exact iff_of_true (stepFrame_response h) ⟨f, rest, rfl⟩
    | reset =>
      rw [step_reset hi] at h
      cases h
      simp [State.applyReset]
    | store a v =>
      rw [step_store hi] at h
      cases h
      simp [State.applyStore]

/-- Settles O51. -/
theorem everyFrameGetsOneResponse : Obligations.EveryFrameGetsOneResponse :=
  fun _ _ h => ⟨step_inputs h, step_response h⟩

end Sys2Proof.Machine
end

section
/-! SUPPORT. The calibration record (30_encoding.md R72 to R75): a 16-bit field is its two bytes, and a canonical record is its tags
and the bytes of its fields. -/

namespace Sys2Proof.Machine

/-! ### A field of the record -/

/-- The two bytes after the tag are the field, the more significant first (R74). -/
theorem fieldAt_encodeField (h : Half) : fieldAt (encodeField h) 1 = h := BitVec.extractLsb'_append_extractLsb'

theorem encodeField_fieldAt (b : List Byte) (k : Nat) : encodeField (fieldAt b k) = [tag16, byteAt b k, byteAt b (k + 1)] := by
  rw [encodeField, fieldAt, BitVec.extractLsb'_append_eq_left, BitVec.extractLsb'_append_eq_right]

/-! ### The whole record -/

theorem canonical_iff (b : List Byte) :
    canonical b = true ↔ b.length = recordLength ∧ byteAt b 0 = recordHeader ∧ byteAt b 1 = tag16 ∧ byteAt b 4 = tag16 ∧
      byteAt b 7 = tag16 ∧ byteAt b 10 = tag16 ∧ byteAt b 13 = tag16 ∧ byteAt b 16 = tag8 := by
  simp only [canonical, Bool.and_eq_true, beq_iff_eq, and_assoc]

theorem map_byteAt_range (b : List Byte) : (List.range b.length).map (byteAt b) = b := by
  refine List.ext_getElem (by simp) fun i _ hi => ?_
  simp [byteAt, hi]

theorem canonical_encodeRecord (c : Calibration) : canonical (encodeRecord c) = true :=
  (canonical_iff _).2 ⟨encodeRecord_length c, rfl, rfl, rfl, rfl, rfl, rfl, rfl⟩

theorem recordFields_encodeRecord (c : Calibration) : recordFields (encodeRecord c) = c := by
  calc recordFields (encodeRecord c)
      = ⟨fieldAt (encodeField c.gainPos) 1, fieldAt (encodeField c.gainNeg) 1, fieldAt (encodeField c.zero) 1,
          fieldAt (encodeField c.min) 1, fieldAt (encodeField c.max) 1, c.updatePeriod⟩ := rfl
    _ = c := by simp only [fieldAt_encodeField]

theorem encodeRecord_recordFields {b : List Byte} (h : canonical b = true) : encodeRecord (recordFields b) = b := by
  obtain ⟨hlen, h0, h1, h4, h7, h10, h13, h16⟩ := (canonical_iff b).1 h
  calc encodeRecord (recordFields b)
      = (List.range recordLength).map (byteAt b) := by
        simp [encodeRecord, recordFields, encodeField_fieldAt, List.range_succ, recordLength, h0, h1, h4, h7, h10, h13, h16]
    _ = b := by rw [← hlen, map_byteAt_range]

/-- Settles O7. -/
theorem canonicalRecordsAreTheCalibrations : Obligations.CanonicalRecordsAreTheCalibrations :=
  ⟨fun c => ⟨canonical_encodeRecord c, recordFields_encodeRecord c⟩, fun _ h => encodeRecord_recordFields h⟩

/-- Settles O6: the bytes of a field are its bits 15:8 and 7:0. -/
theorem recordHasTheLayout : Obligations.RecordHasTheLayout := fun _ => rfl

end Sys2Proof.Machine
end

section
/-! SUPPORT. The assembler's lines of 30_encoding.md R70 and R71. -/

namespace Sys2Proof.Machine

/-- A line and its command, which the frame then decodes to. -/
theorem assembles_and_decodes {text : String} {f : Frame} (i : Instr) (ht : assembleText text = some f)
    (hi : i.wellFormed = true) (hf : encode i = f) : assembleText text = some f ∧ decode f = .ok i :=
  ⟨ht, decode_eq_ok_iff.2 ⟨hi, hf⟩⟩

/-- Settles O1, line by line. -/
theorem encodingExamplesHold : Obligations.EncodingExamplesHold :=
  ⟨assembles_and_decodes _ rfl rfl rfl, assembles_and_decodes _ rfl rfl rfl, assembles_and_decodes _ rfl rfl rfl,
    assembles_and_decodes _ rfl rfl rfl, assembles_and_decodes _ rfl rfl rfl, assembles_and_decodes _ rfl rfl rfl,
    assembles_and_decodes _ rfl rfl rfl, assembles_and_decodes _ rfl rfl rfl, assembles_and_decodes _ rfl rfl rfl,
    assembles_and_decodes _ rfl rfl rfl, assembles_and_decodes _ rfl rfl rfl, assembles_and_decodes _ rfl rfl rfl,
    assembles_and_decodes _ rfl rfl rfl, assembles_and_decodes _ rfl rfl rfl⟩

/-- A value of 16 bits is in range as a 16-bit operand. -/
@[simp] theorem half?_toNat (w : Half) : half? w.toNat = some w := by
  rw [half?, if_pos w.isLt, BitVec.ofNat_toNat, BitVec.setWidth_eq]

@[simp] theorem assemble_setRaw (w : Half) : assemble (.setRaw w.toNat) = some (Frame.ofFields 0x05 0 w 0) := by
  simp [assemble, AsmLine.instr?, encode]

/-- Settles O2: both pseudo-instructions have the command of the instruction they stand for. -/
theorem pseudoInstructionsExpand : Obligations.PseudoInstructionsExpand :=
  ⟨rfl, fun _ => rfl, assemble_setRaw⟩

end Sys2Proof.Machine
end

section
/-! SUPPORT. The lifecycle commands as whole next states (40_lifecycle.md R90 to R93): each is the equation of the command, with the
updates it names written out field by field. -/

namespace Sys2Proof.Machine

/-- Settles O9: INIT puts the defaults into every field, `pos` at the new `zero`, and responds. -/
theorem initOverwritesEveryField : Obligations.InitOverwritesEveryField := exec_init

/-- Settles O11, from the equations of the two commands: each sets the flag and responds. -/
theorem enableAndDisableWriteOnlyTheFlag : Obligations.EnableAndDisableWriteOnlyTheFlag :=
  fun s => ⟨exec_enable s, exec_disable s⟩

/-- Settles O12: GET_ENABLE only responds, with the flag as a word. -/
theorem getEnableReadsTheFlag : Obligations.GetEnableReadsTheFlag := exec_getEnable

end Sys2Proof.Machine
end

section
/-! SUPPORT. LOAD and SAVE on an admitted window (41_codec.md): the window read as a record, one equation per outcome, and from them
what each command leaves and the two round trips of R108. -/

namespace Sys2Proof.Machine

/-! ### The window as a record -/

theorem byteAt_readBytes (m : Memory) (a : Nat) {i : Nat} (h : i < recordLength) :
    byteAt (Memory.readBytes m a recordLength) i = Memory.read m (a + i) :=
  Memory.readBytes_getD m a recordLength i h 0

/-- The model's check of the bytes read is R75 on the window. -/
theorem canonical_readBytes_iff (m : Memory) (a : Nat) :
    canonical (Memory.readBytes m a recordLength) = true ↔ canonicalAt m a := by
  rw [canonical_iff, canonicalAt]
  simp (disch := decide) only [Memory.readBytes_length, byteAt_readBytes, true_and, Nat.add_zero, recordHeader, tag16, tag8]

/-- The calibration in the bytes read is the one in the window (R72, R74). -/
theorem recordFields_readBytes (m : Memory) (a : Nat) :
    recordFields (Memory.readBytes m a recordLength) = calibrationAt m a := by
  simp (disch := decide) only [recordFields, calibrationAt, fieldAt, byteAt_readBytes]

/-- A window that reads as the record of a calibration is canonical and holds that calibration. -/
theorem window_of_encodeRecord {m : Memory} {a : Nat} {c : Calibration}
    (h : Memory.readBytes m a recordLength = encodeRecord c) : canonicalAt m a ∧ calibrationAt m a = c := by
  rw [← canonical_readBytes_iff, ← recordFields_readBytes, h]
  exact ⟨canonical_encodeRecord c, recordFields_encodeRecord c⟩

/-- The bytes of a canonical window are the record of the calibration in it. -/
theorem encodeRecord_calibrationAt {m : Memory} {a : Nat} (h : canonicalAt m a) :
    encodeRecord (calibrationAt m a) = Memory.readBytes m a recordLength := by
  rw [← recordFields_readBytes, encodeRecord_recordFields ((canonical_readBytes_iff m a).2 h)]

/-- A record written to a window reads back from it. -/
theorem readBytes_writeBytes_encodeRecord (m : Memory) (a : Nat) (c : Calibration) :
    Memory.readBytes (Memory.writeBytes m a (encodeRecord c)) a recordLength = encodeRecord c := by
  simpa only [encodeRecord_length] using Memory.readBytes_writeBytes m a (encodeRecord c)

/-! ### The outcomes on an admitted window -/

theorem exec_load_of_not_canonicalAt {a : Word} {s : State} (ha : admittedAt s.params.admitted a)
    (hc : ¬ canonicalAt s.buf a.toNat) : exec (.load a) s = .next (loadRejected a s) := by
  rw [← windowAdmitted_iff_admittedAt] at ha
  rw [← canonical_readBytes_iff] at hc
  rcases execLoad_cases a s with ⟨hw, -⟩ | ⟨-, hb, -⟩ | ⟨-, -, e⟩
  · exact absurd (ha.symm.trans hw) (by decide)
  · exact absurd hb hc
  · exact e

theorem loadRejected_reject (a : Word) {s : State} (h : s.params.noncanonicalLoad = .reject) :
    loadRejected a s = s.drawCal.respond .fail 0 := by
  rw [loadRejected, h]

theorem exec_save_of_admittedAt {a : Word} {s : State} (ha : admittedAt s.params.admitted a) :
    exec (.save a) s = .next { s with
      buf := Memory.writeBytes s.buf a.toNat (encodeRecord s.cal), response := some ⟨.ok, a + 18⟩ } := by
  rw [← windowAdmitted_iff_admittedAt] at ha
  rcases execSave_cases a s with ⟨hw, -⟩ | ⟨-, e⟩
  · exact absurd (ha.symm.trans hw) (by decide)
  · exact e

/-! ### LOAD -/

/-- Settles O29: the window passes both checks, and its bytes assemble to the calibration in it. -/
theorem loadTakesACanonicalRecord : Obligations.LoadTakesACanonicalRecord := by
  intro a s ha hc
  rw [← windowAdmitted_iff_admittedAt] at ha
  rw [← canonical_readBytes_iff] at hc
  rw [← recordFields_readBytes]
  rcases execLoad_cases a s with ⟨hw, -⟩ | ⟨-, -, e⟩ | ⟨-, hb, -⟩
  · exact absurd (ha.symm.trans hw) (by decide)
  · exact e
  · exact absurd (hc.symm.trans hb) (by decide)

/-- Settles O30: the calibration left is the six free values. -/
theorem loadRejectsAWrongTag : Obligations.LoadRejectsAWrongTag := by
  intro a s ha hc hreject
  refine ⟨Calibration.drawnAt s.draws, ?_⟩
  rw [exec_load_of_not_canonicalAt ha hc, loadRejected_reject a hreject]
  rfl

/-- Settles O31: the two responses are those of `loadRejected`, and a canonical window is taken before the parameter is read. -/
theorem lenientLoadFailsOrSucceeds : Obligations.LenientLoadFailsOrSucceeds := by
  intro a s ha
  constructor
  · intro hc _
    obtain ⟨c, n, r, hs, -, hr⟩ := loadRejected_cases a s
    refine ⟨c, n, r, ?_, hr.imp_right And.right⟩
    rw [exec_load_of_not_canonicalAt ha hc, hs]
  · intro hc m
    exact loadTakesACanonicalRecord a { s with params := { s.params with noncanonicalLoad := m } } ha hc

/-! ### SAVE -/

/-- Settles O33: the record has the layout of R72, and its 18 bytes are the window. -/
theorem saveWritesTheRecordAndNothingElse : Obligations.SaveWritesTheRecordAndNothingElse := by
  intro a s ha
  refine ⟨_, exec_save_of_admittedAt ha, fun i hi => ?_, fun b hb => ?_⟩
  · rw [← recordHasTheLayout, Memory.read_writeBytes_inside]
    rwa [encodeRecord_length]
  · rw [Memory.read_writeBytes_outside]
    rwa [encodeRecord_length]

/-! ### The round trips -/

/-- Settles O34: the window still reads as the record of the calibration saved, which is canonical and holds it. -/
theorem loadOfASaveRestoresTheCalibration : Obligations.LoadOfASaveRestoresTheCalibration := by
  intro a s ha
  refine ⟨_, exec_save_of_admittedAt ha, fun u hparams hwindow => ?_⟩
  have hrecord : Memory.readBytes u.buf a.toNat recordLength = encodeRecord s.cal :=
    (Memory.readBytes_congr hwindow).trans (readBytes_writeBytes_encodeRecord s.buf a.toNat s.cal)
  obtain ⟨hc, hcal⟩ := window_of_encodeRecord hrecord
  rw [loadTakesACanonicalRecord a u (hparams ▸ ha) hc, hcal]

/-- Settles O35: the record written at `b` is the one of the calibration in the window at `a`, which is that window's bytes. -/
theorem saveOfALoadRewritesTheRecord : Obligations.SaveOfALoadRewritesTheRecord := by
  intro a b s ha hb hc
  refine ⟨_, _, loadTakesACanonicalRecord a s ha hc, exec_save_of_admittedAt hb, fun i hi => ?_⟩
  calc Memory.read (Memory.writeBytes s.buf b.toNat (encodeRecord (calibrationAt s.buf a.toNat))) (b.toNat + i)
      = (encodeRecord (calibrationAt s.buf a.toNat)).getD i 0 :=
        Memory.read_writeBytes_inside _ _ _ _ (by rwa [encodeRecord_length])
    _ = (Memory.readBytes s.buf a.toNat recordLength).getD i 0 := by rw [encodeRecord_calibrationAt hc]
    _ = Memory.read s.buf (a.toNat + i) := byteAt_readBytes s.buf a.toNat hi

/-! ### The continuation -/

theorem continuation_toNat (a : Word) : (continuation a).toNat = (a.toNat + 18) % 2 ^ 32 := by
  rw [continuation, BitVec.toNat_add]
  rfl

/-- Settles O36: up to the top window `a + 18` is at most `2 ^ 32`, and that value is reached at `0xFFFFFFEE` alone. -/
theorem continuationWrapsOnlyAtTheTop : Obligations.ContinuationWrapsOnlyAtTheTop := by
  refine fun a => ⟨continuation_toNat a, fun ha => ?_⟩
  constructor
  · intro h
    have hzero : 0 = (a.toNat + 18) % 2 ^ 32 := (congrArg BitVec.toNat h).symm.trans (continuation_toNat a)
    exact BitVec.eq_of_toNat_eq (show a.toNat = 0xFFFFFFEE by omega)
  · rintro rfl
    rfl

end Sys2Proof.Machine
end

section
/-! SUPPORT. Rounding to nearest (42_mapper.md R134): the two neighbours it chooses from, that it takes the nearest value of its format,
and from that alone that it keeps order and leaves the values of the format as they are. -/

namespace Sys2Proof.Machine

/-! ### The neighbours of a magnitude -/

/-- The greatest multiple of the last place at `n` that is at most `n`. -/
def lowerNeighbour (p n : Nat) : Nat := n / 2 ^ ulpShift p n * 2 ^ ulpShift p n

/-- The least multiple of the last place at `n` that is above `n`. -/
def upperNeighbour (p n : Nat) : Nat := (n / 2 ^ ulpShift p n + 1) * 2 ^ ulpShift p n

theorem lowerNeighbour_le (p n : Nat) : lowerNeighbour p n ≤ n := Nat.div_mul_le_self ..

theorem lt_upperNeighbour (p n : Nat) : n < upperNeighbour p n := Nat.lt_mul_of_div_lt (Nat.lt_succ_self _) (by positivity)

/-- A count of `2 ^ k` up to `2 ^ p` itself, which the next power of two represents. -/
theorem representable_mul_two_pow {p q : Nat} (hp : 0 < p) (hq : q ≤ 2 ^ p) (k : Nat) : Representable p (q * 2 ^ k) := by
  obtain hq | rfl := hq.lt_or_eq
  · exact ⟨q, k, hq, rfl⟩
  · exact ⟨1, p + k, Nat.one_lt_two_pow hp.ne', by rw [one_mul, pow_add]⟩

theorem representable_lowerNeighbour {p : Nat} (hp : 0 < p) (n : Nat) : Representable p (lowerNeighbour p n) :=
  representable_mul_two_pow hp (quotient_lt p n).le _

theorem representable_upperNeighbour {p : Nat} (hp : 0 < p) (n : Nat) : Representable p (upperNeighbour p n) :=
  representable_mul_two_pow hp (quotient_lt p n) _

/-! ### Rounding a magnitude -/

/-- The value's last bit at the precision of `n` is even. -/
def evenAtLastPlace (p n m : Nat) : Prop := ∃ q, m = 2 * q * 2 ^ ulpShift p n

theorem evenAtLastPlace_mul (p n : Nat) {q : Nat} (hq : q % 2 = 0) : evenAtLastPlace p n (q * 2 ^ ulpShift p n) :=
  ⟨q / 2, by rw [Nat.two_mul_div_two_of_even (Nat.even_iff.2 hq)]⟩

/-- The nearer neighbour is taken, from half way the even one. -/
theorem roundNearestEven_cases (p n : Nat) :
    (roundNearestEven p n 1 = lowerNeighbour p n ∧ 2 * n ≤ lowerNeighbour p n + upperNeighbour p n ∧
      (2 * n = lowerNeighbour p n + upperNeighbour p n → evenAtLastPlace p n (lowerNeighbour p n))) ∨
    (roundNearestEven p n 1 = upperNeighbour p n ∧ lowerNeighbour p n + upperNeighbour p n ≤ 2 * n ∧
      (2 * n = lowerNeighbour p n + upperNeighbour p n → evenAtLastPlace p n (upperNeighbour p n))) := by
  have hn : lowerNeighbour p n + n % 2 ^ ulpShift p n = n := Nat.div_add_mod' n (2 ^ ulpShift p n)
  have hu : upperNeighbour p n = lowerNeighbour p n + 2 ^ ulpShift p n := Nat.succ_mul ..
  rw [roundNearestEven_one]
  split
  · exact .inr ⟨rfl, by omega, fun _ => evenAtLastPlace_mul p n (by omega)⟩
  · exact .inl ⟨rfl, by omega, fun _ => evenAtLastPlace_mul p n (by omega)⟩

theorem representable_roundNearestEven {p : Nat} (hp : 0 < p) (n : Nat) : Representable p (roundNearestEven p n 1) := by
  obtain ⟨e, -⟩ | ⟨e, -⟩ := roundNearestEven_cases p n
  · rw [e]; exact representable_lowerNeighbour hp n
  · rw [e]; exact representable_upperNeighbour hp n

/-- No value of the format is nearer than the one rounded to; one as near lies beyond the other neighbour, half way. -/
theorem roundNearestEven_nearest {p : Nat} (hp : 0 < p) (n : Nat) {m : Nat} (hm : Representable p m) :
    |(n : ℤ) - roundNearestEven p n 1| ≤ |(n : ℤ) - m| ∧
    (m ≠ roundNearestEven p n 1 → |(n : ℤ) - roundNearestEven p n 1| = |(n : ℤ) - m| →
      evenAtLastPlace p n (roundNearestEven p n 1)) := by
  have hlo := lowerNeighbour_le p n
  have hhi := lt_upperNeighbour p n
  have hout : m ≤ lowerNeighbour p n ∨ upperNeighbour p n ≤ m := representable_outside p n m hp hm
  rw [Int.abs_eq_natAbs, Int.abs_eq_natAbs]
  obtain ⟨e, hhalf, heven⟩ | ⟨e, hhalf, heven⟩ := roundNearestEven_cases p n
  · rw [e]; exact ⟨by omega, fun _ _ => heven (by omega)⟩
  · rw [e]; exact ⟨by omega, fun _ _ => heven (by omega)⟩

/-- Settles O16, by the two neighbours of the number: no value of the format lies between them. -/
theorem roundingIsToNearestTiesToEven : Obligations.RoundingIsToNearestTiesToEven :=
  fun _ n hp => ⟨representable_roundNearestEven hp n, fun _ hm => roundNearestEven_nearest hp n hm⟩

/-- A value of the format is nearest to itself. -/
theorem roundNearestEven_of_representable {p n : Nat} (hp : 0 < p) (h : Representable p n) : roundNearestEven p n 1 = n := by
  obtain ⟨hle, -⟩ := roundNearestEven_nearest hp n h
  rw [Int.abs_eq_natAbs, Int.abs_eq_natAbs] at hle
  omega

@[simp] theorem roundNearestEven_zero (p : Nat) : roundNearestEven p 0 1 = 0 := by
  simp [roundNearestEven_one]

/-- Were the greater number rounded below the smaller one, each would be nearer to the value of the other. -/
theorem roundNearestEven_mono {p : Nat} (hp : 0 < p) {m n : Nat} (h : m ≤ n) :
    roundNearestEven p m 1 ≤ roundNearestEven p n 1 := by
  obtain ⟨hm, -⟩ := roundNearestEven_nearest hp m (representable_roundNearestEven hp n)
  obtain ⟨hn, -⟩ := roundNearestEven_nearest hp n (representable_roundNearestEven hp m)
  obtain rfl | hlt := h.eq_or_lt
  · exact le_rfl
  · simp only [Int.abs_eq_natAbs] at hm hn
    omega

/-! ### Rounding a signed number -/

theorem roundTo_eq_posInf_iff {p L : Nat} (hL : 0 < L) (y : Int) : roundTo p L y = .posInf ↔ (L : ℤ) ≤ y := by
  unfold roundTo
  split_ifs <;> simp <;> omega

theorem roundTo_eq_negInf_iff {p L : Nat} (hL : 0 < L) (y : Int) : roundTo p L y = .negInf ↔ (L : ℤ) ≤ -y := by
  unfold roundTo
  split_ifs <;> simp <;> omega

/-- What is not rounded to an infinity is rounded as its magnitude is, the sign kept. -/
theorem eq_of_roundTo_eq_fin {p L : Nat} {y n : Int} (h : roundTo p L y = .fin n) :
    n = y.sign * roundNearestEven p y.natAbs 1 := by
  obtain hy | rfl | hy := lt_trichotomy y 0
  · rw [Int.sign_eq_neg_one_of_neg hy]
    grind [roundTo]
  · grind [roundTo, roundNearestEven_zero]
  · rw [Int.sign_eq_one_of_pos hy]
    grind [roundTo]

/-- A number below the limit whose magnitude is a value of the format is not changed. -/
theorem roundTo_of_representable {p L : Nat} (hp : 0 < p) {y : Int} (h : Representable p y.natAbs) (hL : y.natAbs < L) :
    roundTo p L y = .fin y := by
  unfold roundTo
  rw [if_neg (by omega), roundNearestEven_of_representable hp h, Ext.fin.injEq]
  split_ifs <;> omega

theorem roundTo_mono {p : Nat} (hp : 0 < p) (L : Nat) {y z : Int} (h : y ≤ z) : Ext.le (roundTo p L y) (roundTo p L z) := by
  have pos : y.natAbs ≤ z.natAbs → _ := roundNearestEven_mono (n := z.natAbs) hp
  have neg : z.natAbs ≤ y.natAbs → _ := roundNearestEven_mono (n := y.natAbs) hp
  unfold roundTo
  split_ifs <;> simp only [Ext.le] <;> omega

/-- `MAP_ARITH` never turns two results around. -/
theorem roundUnder_mono (A : MapArith) {y z : Int} (h : y ≤ z) : Ext.le (roundUnder A y) (roundUnder A z) := by
  cases A with
  | binary32 => exact roundTo_mono (by decide) _ h
  | binary64 => exact roundTo_mono (by decide) _ h
  | exact => exact h

/-- No `MAP_ARITH` changes a binary32 value. -/
theorem roundUnder_of_binary32Value (A : MapArith) {y : Int} (h : binary32Value y) : roundUnder A y = .fin y := by
  obtain ⟨hrep, hlt⟩ := h
  cases A with
  | binary32 => exact roundTo_of_representable (by decide) hrep hlt
  | binary64 => exact roundTo_of_representable (by decide) (hrep.mono (by decide)) (hlt.trans overflow32_lt_overflow64)
  | exact => rfl

/-! ### The thresholds -/

theorem realOf_neg (y : Int) : realOf (-y) = -realOf y := by
  simp [realOf, neg_div]

/-- A threshold in units of `2 ^ -149` is passed where the rational one is. -/
theorem two_pow_sub_le_realOf_iff {a b : Nat} (h : b ≤ a) (y : Int) :
    (2 : ℚ) ^ a - 2 ^ b ≤ realOf y ↔ (((2 ^ a - 2 ^ b) * 2 ^ 149 : ℕ) : ℤ) ≤ y := by
  have hpow : 2 ^ b ≤ 2 ^ a := Nat.pow_le_pow_right (by decide) h
  rw [realOf, le_div_iff₀ (by positivity), ← Int.cast_le (R := ℚ)]
  push_cast [hpow]
  exact Iff.rfl

/-- What a rounding to `p` bits does that overflows from `2 ^ a - 2 ^ b` on. -/
theorem roundTo_thresholds {p L a b : Nat} (hL : L = (2 ^ a - 2 ^ b) * 2 ^ 149) (h : b < a) (y : Int) :
    (roundTo p L y = .posInf ↔ (2 : ℚ) ^ a - 2 ^ b ≤ realOf y) ∧
    (roundTo p L y = .negInf ↔ realOf y ≤ -((2 : ℚ) ^ a - 2 ^ b)) ∧
    (∀ n, roundTo p L y = .fin n → n = y.sign * roundNearestEven p y.natAbs 1) := by
  have hpow : 2 ^ b < 2 ^ a := Nat.pow_lt_pow_right (by decide) h
  have hpos : 0 < L := hL ▸ Nat.mul_pos (Nat.sub_pos_of_lt hpow) (by positivity)
  refine ⟨?_, ?_, fun _ => eq_of_roundTo_eq_fin⟩
  · rw [roundTo_eq_posInf_iff hpos, two_pow_sub_le_realOf_iff h.le, hL]
  · rw [roundTo_eq_negInf_iff hpos, le_neg (a := realOf y), ← realOf_neg, two_pow_sub_le_realOf_iff h.le, hL]

/-- Settles O17: both limits are the rational thresholds in units of `2 ^ -149`. -/
theorem roundingOverflowsAtTheThreshold : Obligations.RoundingOverflowsAtTheThreshold :=
  fun y => ⟨roundTo_thresholds rfl (by decide) y, roundTo_thresholds overflow64_eq (by decide) y, rfl⟩

end Sys2Proof.Machine
end

section
/-! SUPPORT. The binary32 operand (42_mapper.md R131): the four forms of a pattern, and the rational each finite one denotes. -/

namespace Sys2Proof.Machine

/-! ### The forms of a pattern -/

/-- The number with the given sign bit and magnitude. -/
def signed (negative : Bool) (m : Int) : Int := if negative then -m else m

theorem signField_eq_one_iff (d : Word) : d.extractLsb' 31 1 = 1 ↔ d.getLsbD 31 = true := by
  simp [BitVec.eq_of_getLsbD_eq_iff]

/-- `f32` by the three fields of R131. -/
theorem f32_eq (d : Word) : f32 d =
    if (d.extractLsb 30 23).toNat = 255 then
      if (d.extractLsb 22 0).toNat ≠ 0 then none else some (if d.getLsbD 31 then .negInf else .posInf)
    else some (.fin (signed (d.getLsbD 31) (if (d.extractLsb 30 23).toNat = 0 then (d.extractLsb 22 0).toNat
      else (2 ^ 23 + (d.extractLsb 22 0).toNat) * 2 ^ ((d.extractLsb 30 23).toNat - 1)))) := by
  simp only [f32, signField_eq_one_iff]
  rfl

theorem f32_subnormal {d : Word} (he : (d.extractLsb 30 23).toNat = 0) :
    f32 d = some (.fin (signed (d.getLsbD 31) (d.extractLsb 22 0).toNat)) := by
  rw [f32_eq, if_neg (by omega), if_pos he]

theorem f32_normal {d : Word} (h1 : 1 ≤ (d.extractLsb 30 23).toNat) (h2 : (d.extractLsb 30 23).toNat ≤ 254) :
    f32 d = some (.fin (signed (d.getLsbD 31)
      ((2 ^ 23 + (d.extractLsb 22 0).toNat) * 2 ^ ((d.extractLsb 30 23).toNat - 1)))) := by
  rw [f32_eq, if_neg (by omega), if_neg (by omega)]

/-! ### The values of the finite forms -/

theorem realOf_signed (b : Bool) (m : Int) :
    realOf (signed b m) = (if b then -1 else 1) * (m : ℚ) * (2 : ℚ) ^ (-149 : ℤ) := by
  cases b <;> simp [realOf, signed, div_eq_mul_inv, zpow_neg]

/-- A normal magnitude, the point moved from the last place to behind the first bit. -/
theorem normal_magnitude {e : Nat} (he : 1 ≤ e) (f : ℚ) :
    (2 ^ 23 + f) * 2 ^ (e - 1) * (2 : ℚ) ^ (-149 : ℤ) = (1 + f * (2 : ℚ) ^ (-23 : ℤ)) * (2 : ℚ) ^ ((e : ℤ) - 127) := by
  obtain ⟨k, rfl⟩ := Nat.exists_eq_add_of_le' he
  have hexp : ((k + 1 : ℕ) : ℤ) - 127 = k + 23 + -149 := by omega
  rw [hexp, zpow_add₀ two_ne_zero, zpow_add₀ two_ne_zero, zpow_natCast, Nat.add_sub_cancel, zpow_neg]
  field_simp

/-- Settles O13, form by form. -/
theorem binary32PatternsDenoteTheirValues : Obligations.Binary32PatternsDenoteTheirValues := by
  intro d
  refine ⟨fun he => ⟨_, f32_subnormal he, realOf_signed _ _⟩, fun h1 h2 => ⟨_, f32_normal h1 h2, ?_⟩, fun he hf => ?_,
    fun he hf => ?_⟩
  · rw [realOf_signed, mul_assoc, mul_assoc (b := 1 + _), ← normal_magnitude h1]
    push_cast
    rfl
  · rw [f32_eq, if_pos he, if_neg (not_not.2 hf)]
  · rw [f32_eq, if_pos he, if_pos hf]

end Sys2Proof.Machine
end

section
/-! SUPPORT. The mapped position (42_mapper.md R134 to R136): product, sum, clamp and truncation, each with what it keeps of the order and
of the values binary32 holds. -/

namespace Sys2Proof.Machine

/-! ### The operand and its gain -/

theorem setInput_of_some {d : Word} {x : Ext} (h : f32 d = some x) : setInput d = x := by rw [setInput, h, Option.getD_some]

theorem setInput_of_none {d : Word} (h : f32 d = none) : setInput d = .fin 0 := by rw [setInput, h, Option.getD_none]

theorem selectGain_of_positive {x : Ext} (h : x.isPositive = true) (c : Calibration) : selectGain c x = c.gainPos := if_pos h

theorem selectGain_of_not_positive {x : Ext} (h : x.isPositive = false) (c : Calibration) : selectGain c x = c.gainNeg :=
  if_neg (by simp [h])

theorem Ext.le_zero_of_not_positive {x : Ext} (h : x.isPositive = false) : Ext.le x (.fin 0) := by
  cases x <;> simp_all [Ext.isPositive, Ext.le]

theorem Ext.zero_le_of_positive {x : Ext} (h : x.isPositive = true) : Ext.le (.fin 0) x := by
  cases x <;> simp_all [Ext.isPositive, Ext.le, Int.le_of_lt]

/-- Numbers in order never turn from positive to not positive. -/
theorem Ext.isPositive_of_le {x y : Ext} (h : Ext.le x y) (hx : x.isPositive = true) : y.isPositive = true := by
  cases x <;> cases y <;> simp_all [Ext.isPositive, Ext.le]
  omega

/-! ### Values that binary32 holds -/

/-- A count of at most 24 bits of a unit that is no larger than 1. -/
theorem binary32Value_mul_two_pow {m : Int} {k : Nat} (hm : m.natAbs < 2 ^ 24) (hk : k ≤ 149) : binary32Value (m * 2 ^ k) := by
  have habs : (m * 2 ^ k).natAbs = m.natAbs * 2 ^ k := by rw [Int.natAbs_mul, Int.natAbs_pow]; rfl
  refine ⟨⟨m.natAbs, k, hm, habs⟩, ?_⟩
  calc (m * 2 ^ k).natAbs = m.natAbs * 2 ^ k := habs
    _ < 2 ^ 24 * 2 ^ 149 := Nat.mul_lt_mul_of_lt_of_le hm (Nat.pow_le_pow_right (by decide) hk) (by decide)
    _ < overflow32 := by decide

theorem binary32Value_unitsOf (h : Half) : binary32Value (unitsOf h) :=
  binary32Value_mul_two_pow (by have := h.isLt; omega) le_rfl

/-- Where product and sum are binary32 values every `MAP_ARITH` gives what exact arithmetic gives. -/
theorem mapPosition_eq_exact (P : Params) (c : Calibration) {x : Int} {g : Half} (hmul : binary32Value (x * g.toNat))
    (hadd : binary32Value (unitsOf c.zero + x * g.toNat)) :
    mapPosition P c (.fin x) g = truncate (clampTo P.invertedClamp c.min c.max (.fin (unitsOf c.zero + x * g.toNat))) := by
  rw [mapPosition, mapMul, roundUnder_of_binary32Value _ hmul, mapAdd, roundUnder_of_binary32Value _ hadd]

/-! ### The clamp in order -/

theorem mapPosition_of_le {P : Params} {c : Calibration} (h : c.min ≤ c.max) (x : Ext) (g : Half) :
    mapPosition P c x g = truncate (clampMinFirst (unitsOf c.min) (unitsOf c.max)
      (mapAdd P.mapArith c.zero (mapMul P.mapArith x g))) := by
  rw [mapPosition, clampTo_of_le h]

/-- Fields are clamped as their numbers are. -/
theorem clampMinFirst_unitsOf (lo hi z : Half) : clampMinFirst (unitsOf lo) (unitsOf hi) (.fin (unitsOf z)) =
    unitsOf (if z < lo then lo else if hi < z then hi else z) := by
  simp only [clampMinFirst, unitsOf_lt]
  split_ifs <;> rfl

/-- Input 0 maps to the clamped zero offset, whatever the gain (R143). -/
theorem mapPosition_zero {P : Params} {c : Calibration} (h : c.min ≤ c.max) (g : Half) :
    mapPosition P c (.fin 0) g = clampedZero c := by
  have hmul : binary32Value (0 * g.toNat) := by rw [zero_mul]; exact binary32Value_unitsOf 0
  rw [mapPosition_eq_exact P c hmul (by simpa using binary32Value_unitsOf c.zero), zero_mul, add_zero, clampTo_of_le h,
    clampMinFirst_unitsOf, truncate_unitsOf, clampedZero]

theorem mapPosition_range {P : Params} {c : Calibration} (h : c.min ≤ c.max) (x : Ext) (g : Half) :
    c.min ≤ mapPosition P c x g ∧ mapPosition P c x g ≤ c.max := by
  rw [mapPosition_of_le h]
  obtain ⟨hlo, hhi⟩ := clampMinFirst_range (unitsOf_le.2 h) (mapAdd P.mapArith c.zero (mapMul P.mapArith x g))
  constructor
  · simpa only [truncate_unitsOf] using truncate_mono (unitsOf_nonneg c.min) hlo hhi
  · simpa only [truncate_unitsOf] using truncate_mono ((unitsOf_nonneg c.min).trans hlo) hhi le_rfl

/-! ### Order -/

theorem Ext.le_posInf (x : Ext) : Ext.le x .posInf := by cases x <;> trivial

/-- An operation that keeps the infinities and is monotone on finite numbers is monotone. -/
theorem Ext.le_map {F : Ext → Ext} (hneg : F .negInf = .negInf) (hpos : F .posInf = .posInf)
    (hfin : ∀ m n : Int, m ≤ n → Ext.le (F (.fin m)) (F (.fin n))) {x y : Ext} (h : Ext.le x y) : Ext.le (F x) (F y) := by
  cases x with
  | negInf => rw [hneg]; exact trivial
  | fin m =>
    cases y with
    | negInf => exact h.elim
    | fin n => exact hfin m n h
    | posInf => rw [hpos]; exact Ext.le_posInf _
  | posInf =>
    cases y with
    | negInf | fin => exact h.elim
    | posInf => rw [hpos]; exact Ext.le_posInf _

theorem mapMul_mono (A : MapArith) (g : Half) {x y : Ext} (h : Ext.le x y) : Ext.le (mapMul A x g) (mapMul A y g) :=
  Ext.le_map (F := (mapMul A · g)) rfl rfl
    (fun _ _ hmn => roundUnder_mono A (Int.mul_le_mul_of_nonneg_right hmn (Int.natCast_nonneg _))) h

theorem mapAdd_mono (A : MapArith) (z : Half) {p q : Ext} (h : Ext.le p q) : Ext.le (mapAdd A z p) (mapAdd A z q) :=
  Ext.le_map (F := mapAdd A z) rfl rfl (fun _ _ hmn => roundUnder_mono A (Int.add_le_add_left hmn _)) h

/-- One gain: every step of the mapper keeps the order. -/
theorem mapPosition_mono {P : Params} {c : Calibration} (h : c.min ≤ c.max) (g : Half) {x y : Ext} (hxy : Ext.le x y) :
    mapPosition P c x g ≤ mapPosition P c y g := by
  rw [mapPosition_of_le h, mapPosition_of_le h]
  have hlim := unitsOf_le.2 h
  have hv := mapAdd_mono P.mapArith c.zero (mapMul_mono P.mapArith g hxy)
  obtain ⟨hlo, -⟩ := clampMinFirst_range hlim (mapAdd P.mapArith c.zero (mapMul P.mapArith x g))
  obtain ⟨-, hhi⟩ := clampMinFirst_range hlim (mapAdd P.mapArith c.zero (mapMul P.mapArith y g))
  exact truncate_mono ((unitsOf_nonneg c.min).trans hlo) (clampMinFirst_mono hlim hv) hhi

/-- Across the change of gain the two branches meet at 0, where no gain is seen (R144). -/
theorem mapPosition_selectGain_mono {P : Params} {c : Calibration} (h : c.min ≤ c.max) {x y : Ext} (hxy : Ext.le x y) :
    mapPosition P c x (selectGain c x) ≤ mapPosition P c y (selectGain c y) := by
  cases hx : x.isPositive with
  | true =>
    rw [selectGain_of_positive hx, selectGain_of_positive (Ext.isPositive_of_le hxy hx)]
    exact mapPosition_mono h _ hxy
  | false =>
    cases hy : y.isPositive with
    | false =>
      rw [selectGain_of_not_positive hx, selectGain_of_not_positive hy]
      exact mapPosition_mono h _ hxy
    | true =>
      calc mapPosition P c x (selectGain c x) ≤ mapPosition P c (.fin 0) (selectGain c x) :=
            mapPosition_mono h _ (Ext.le_zero_of_not_positive hx)
        _ = mapPosition P c (.fin 0) (selectGain c y) := by rw [mapPosition_zero h, mapPosition_zero h]
        _ ≤ mapPosition P c y (selectGain c y) := mapPosition_mono h _ (Ext.zero_le_of_positive hy)

/-! ### Over the rationals -/

theorem realOf_mono : Monotone realOf := fun _ _ h => div_le_div_of_nonneg_right (Int.cast_le.2 h) (by positivity)

theorem realOf_unitsOf (h : Half) : realOf (unitsOf h) = realOfHalf h := by
  rw [realOf, unitsOf, unitsPerOne, realOfHalf]
  push_cast
  exact mul_div_cancel_right₀ _ (by positivity)

theorem floor_realOf (n : Int) : ⌊realOf n⌋ = n / unitsPerOne := by
  have h := Rat.floor_intCast_div_natCast n (2 ^ 149)
  push_cast at h
  exact h

theorem clampMinFirst_fin {lo hi : Int} (h : lo ≤ hi) (n : Int) : clampMinFirst lo hi (.fin n) = max lo (min hi n) := by
  simp only [clampMinFirst]
  split_ifs <;> omega

/-- Clamp and truncation of a finite number are those of the rationals. -/
theorem truncate_clampMinFirst_fin {lo hi : Half} (h : lo ≤ hi) (v : Int) :
    ((truncate (clampMinFirst (unitsOf lo) (unitsOf hi) (.fin v))).toNat : ℤ) =
      ⌊max (realOfHalf lo) (min (realOfHalf hi) (realOf v))⌋ := by
  have hlim := unitsOf_le.2 h
  obtain ⟨hlo, hhi⟩ := clampMinFirst_range hlim (.fin v)
  rw [truncate_toNat ((unitsOf_nonneg lo).trans hlo) hhi, ← floor_realOf, clampMinFirst_fin hlim, realOf_mono.map_max,
    realOf_mono.map_min, realOf_unitsOf, realOf_unitsOf]

end Sys2Proof.Machine
end

section
/-! SUPPORT. SET (42_mapper.md R139): the state it leaves where it draws and where it maps, and from these each of its rules. -/

namespace Sys2Proof.Machine

/-! ### The two outcomes -/

/-- The two draw cases of SET (60_exceptions.md R173). -/
theorem setDraws_iff (d : Word) (s : State) :
    setDraws d s = true ↔ ((setInput d).isInfinite = true ∧ selectGain s.cal (setInput d) = 0) ∨
      (s.cal.max < s.cal.min ∧ s.params.invertedClamp = .draw) := by
  simp [setDraws]

theorem exec_set_of_draws {d : Word} {s : State} (h : setDraws d s = true) : exec (.set d) s =
    .next { s with pos := s.drawn 16, draws := s.draws + 1, response := some ⟨.ok, 0⟩ } := by
  rcases execSet_cases d s with ⟨-, e⟩ | ⟨hn, -⟩
  · exact e
  · exact absurd (h.symm.trans hn) (by decide)

/-- SET that draws nothing, its position known. -/
theorem exec_set_of_mapPosition {d : Word} {s : State} {p : Half} (hd : setDraws d s = false)
    (hp : mapPosition s.params s.cal (setInput d) (selectGain s.cal (setInput d)) = p) :
    exec (.set d) s = .next { s with pos := p, response := some ⟨.ok, 0⟩ } := hp ▸ exec_set_of_not_draws d s hd

/-- SET of a number, with the limits in order and R138 excluded. -/
theorem exec_set_of_ordered {d : Word} {s : State} {x : Ext} (hx : setInput d = x) (h : s.cal.min ≤ s.cal.max)
    (hz : ¬(x.isInfinite = true ∧ selectGain s.cal x = 0)) : exec (.set d) s =
      .next { s with pos := mapPosition s.params s.cal x (selectGain s.cal x), response := some ⟨.ok, 0⟩ } := by
  subst hx
  exact exec_set_of_not_draws d s (setDraws_of_le d s h hz)

/-- SET of a finite number, with the limits in order: R138 is about infinities only. -/
theorem exec_set_of_finite {d : Word} {s : State} {x : Int} (hx : setInput d = .fin x) (h : s.cal.min ≤ s.cal.max) :
    exec (.set d) s =
      .next { s with pos := mapPosition s.params s.cal (.fin x) (selectGain s.cal (.fin x)), response := some ⟨.ok, 0⟩ } :=
  exec_set_of_ordered hx h (by simp [Ext.isInfinite])

/-- SET that draws nothing and whose clamp gives one of the fields stores that field. -/
theorem exec_set_of_clampTo {d : Word} {s : State} {b : Half} (hd : setDraws d s = false)
    (hb : clampTo s.params.invertedClamp s.cal.min s.cal.max (unclamped d s) = unitsOf b) :
    exec (.set d) s = .next { s with pos := b, response := some ⟨.ok, 0⟩ } :=
  exec_set_of_mapPosition hd ((congrArg truncate hb).trans (truncate_unitsOf b))

/-! ### SET over the rationals, its order and its range -/

/-- The gain of a finite input, by its sign. -/
theorem selectGain_fin (c : Calibration) (x : Int) : selectGain c (.fin x) = if 0 < x then c.gainPos else c.gainNeg := by
  simp [selectGain, Ext.isPositive]

/-- Settles O18: the mapper's clamp and truncation of a finite sum are those of the rationals, and an infinite
product is the sum. -/
theorem setMatchesRealArithmetic : Obligations.SetMatchesRealArithmetic := by
  intro d s x hx h
  refine ⟨_, exec_set_of_finite (setInput_of_some hx) h, ?_⟩
  rw [selectGain_fin, mapPosition_of_le h, mapMul]
  refine ⟨fun m v hm hv => ?_, fun hp => ?_, fun hn => ?_⟩
  · have hadd : mapAdd s.params.mapArith s.cal.zero (.fin m) = .fin v := hv
    rw [hm, hadd, truncate_clampMinFirst_fin h]
  · rw [hp]; exact truncate_unitsOf s.cal.max
  · rw [hn]; exact truncate_unitsOf s.cal.min

/-- Settles O24, from the mapper's monotonicity across the change of gain. -/
theorem setIsMonotone : Obligations.SetIsMonotone := by
  intro d e x y s t u hx hy hxy h hzx hzy ht hu
  cases ht.symm.trans (exec_set_of_ordered (setInput_of_some hx) h hzx)
  cases hu.symm.trans (exec_set_of_ordered (setInput_of_some hy) h hzy)
  exact mapPosition_selectGain_mono h hxy

/-- Settles O23. -/
theorem setStaysBetweenTheLimits : Obligations.SetStaysBetweenTheLimits :=
  fun _ _ h hz => ⟨_, exec_set_of_ordered rfl h hz, mapPosition_range h _ _⟩

/-! ### NaN, zero and the infinities -/

theorem setInput_of_nan_or_zero {d : Word} (h : f32 d = none ∨ f32 d = some (.fin 0)) : setInput d = .fin 0 :=
  h.elim setInput_of_none setInput_of_some

/-- Settles O14: the input is 0, which is not positive and maps to the clamped zero offset under every gain. -/
theorem nanAndZeroMapToTheClampedZero : Obligations.NanAndZeroMapToTheClampedZero := by
  intro d s hd
  have hx := setInput_of_nan_or_zero hd
  refine ⟨by rw [hx]; exact selectGain_of_not_positive rfl s.cal, fun h => ?_⟩
  rw [exec_set_of_finite hx h, mapPosition_zero h]

/-- Settles O20: an infinity with a zero selected gain is the first draw case. -/
theorem infiniteInputWithZeroGainDraws : Obligations.InfiniteInputWithZeroGainDraws := by
  intro d s hd
  refine ⟨_, exec_set_of_draws ((setDraws_iff d s).2 (.inl ?_))⟩
  obtain ⟨hx, hg⟩ | ⟨hx, hg⟩ := hd
  · rw [setInput_of_some hx]; exact ⟨rfl, hg⟩
  · rw [setInput_of_some hx]; exact ⟨rfl, hg⟩

/-- Settles O22: product and sum keep the infinity, and the clamp gives its limit. -/
theorem infinitiesStoreTheLimits : Obligations.InfinitiesStoreTheLimits :=
  fun s h => ⟨fun hg => exec_set_of_clampTo (setDraws_of_le _ s h fun ⟨_, hz⟩ => hg hz) (clampTo_of_le h _),
    fun hg => exec_set_of_clampTo (setDraws_of_le _ s h fun ⟨_, hz⟩ => hg hz) (clampTo_of_le h _)⟩

/-! ### The gain, the frame and the inverted clamp -/

/-- With other gains, but the same for this input, SET stores the same `pos`. -/
theorem exec_set_of_same_gain {d : Word} {s : State} (hd : setDraws d s = false) {gp gn : Half}
    (hg : selectGain { s.cal with gainPos := gp, gainNeg := gn } (setInput d) = selectGain s.cal (setInput d)) :
    exec (.set d) { s with cal := { s.cal with gainPos := gp, gainNeg := gn } } = .next { s with
      cal := { s.cal with gainPos := gp, gainNeg := gn }
      pos := mapPosition s.params s.cal (setInput d) (selectGain s.cal (setInput d))
      response := some ⟨.ok, 0⟩ } := by
  have hd' : setDraws d { s with cal := { s.cal with gainPos := gp, gainNeg := gn } } = false := by
    rw [← hd, setDraws, hg]; rfl
  rw [exec_set_of_not_draws _ _ hd', hg]
  rfl

/-- Settles O15: the gain not selected decides neither a draw nor the position. -/
theorem setUsesTheGainOfTheSign : Obligations.SetUsesTheGainOfTheSign := by
  intro d s t g hd ht
  cases ht.symm.trans (exec_set_of_not_draws d s hd)
  refine ⟨fun hx => exec_set_of_same_gain hd ?_, fun hx => exec_set_of_same_gain hd ?_⟩
  · rw [selectGain_of_positive hx, selectGain_of_positive hx]
  · rw [selectGain_of_not_positive hx, selectGain_of_not_positive hx]

/-- Settles O19, by the two outcomes of SET. -/
theorem setAlwaysCompletesAndWritesOnlyPos : Obligations.SetAlwaysCompletesAndWritesOnlyPos := by
  intro d s
  cases hd : setDraws d s with
  | true => exact ⟨_, _, exec_set_of_draws hd, fun h => absurd h (by decide)⟩
  | false => exact ⟨_, _, exec_set_of_not_draws d s hd, fun _ => ⟨rfl, rfl⟩⟩

/-- The clamp under an inverted pair of limits and `min_first` (R135). -/
theorem clampTo_minFirst_inverted {lo hi : Half} (h : hi < lo) (v : Ext) :
    (¬ Ext.le (.fin (unitsOf lo)) v → clampTo .minFirst lo hi v = unitsOf lo) ∧
    (Ext.le (.fin (unitsOf lo)) v → clampTo .minFirst lo hi v = unitsOf hi) := by
  have hlim := unitsOf_lt.2 h
  have hclamp : clampTo .minFirst lo hi v = clampMinFirst (unitsOf lo) (unitsOf hi) v := by simp [clampTo]
  rw [hclamp]
  cases v with
  | negInf => exact ⟨fun _ => rfl, fun hle => hle.elim⟩
  | fin n => simp only [Ext.le, clampMinFirst]; grind
  | posInf => exact ⟨fun hle => absurd trivial hle, fun _ => rfl⟩

/-- The clamp under an inverted pair of limits and `max_first` (R135). -/
theorem clampTo_maxFirst_inverted {lo hi : Half} (h : hi < lo) (v : Ext) :
    (¬ Ext.le v (.fin (unitsOf hi)) → clampTo .maxFirst lo hi v = unitsOf hi) ∧
    (Ext.le v (.fin (unitsOf hi)) → clampTo .maxFirst lo hi v = unitsOf lo) := by
  have hlim := unitsOf_lt.2 h
  have hclamp : clampTo .maxFirst lo hi v = clampMaxFirst (unitsOf lo) (unitsOf hi) v := by simp [clampTo, h]
  rw [hclamp]
  cases v with
  | negInf => exact ⟨fun hle => absurd trivial hle, fun _ => rfl⟩
  | fin n => simp only [Ext.le, clampMaxFirst]; grind
  | posInf => exact ⟨fun _ => rfl, fun hle => hle.elim⟩

/-- Settles O21, by the value of the parameter: under `draw` this is the second draw case, under the others nothing is drawn and
the clamp decides. -/
theorem invertedClampFollowsItsParameter : Obligations.InvertedClampFollowsItsParameter := by
  intro d s h hz
  have hd (hic : s.params.invertedClamp ≠ .draw) : setDraws d s = false :=
    Bool.eq_false_iff.2 fun hd => ((setDraws_iff d s).1 hd).elim hz fun ⟨_, he⟩ => hic he
  refine ⟨fun hic => ⟨_, exec_set_of_draws ((setDraws_iff d s).2 (.inr ⟨h, hic⟩))⟩, fun hic => ?_, fun hic => ?_⟩
  · obtain ⟨hmin, hmax⟩ := clampTo_minFirst_inverted h (unclamped d s)
    rw [← hic] at hmin hmax
    have hd := hd (by simp [hic])
    exact ⟨fun hv => exec_set_of_clampTo hd (hmin hv), fun hv => exec_set_of_clampTo hd (hmax hv)⟩
  · obtain ⟨hmax, hmin⟩ := clampTo_maxFirst_inverted h (unclamped d s)
    rw [← hic] at hmin hmax
    have hd := hd (by simp [hic])
    exact ⟨fun hv => exec_set_of_clampTo hd (hmax hv), fun hv => exec_set_of_clampTo hd (hmin hv)⟩

/-! ### Exact inputs -/

/-- Where product and sum are binary32 values SET stores, under every `MAP_ARITH`, what exact arithmetic gives (R145). -/
theorem exec_set_of_exact {d : Word} {s : State} {x : Int} (hx : f32 d = some (.fin x)) (hd : setDraws d s = false)
    (hmul : binary32Value (x * (selectGain s.cal (.fin x)).toNat))
    (hadd : binary32Value (unitsOf s.cal.zero + x * (selectGain s.cal (.fin x)).toNat)) (A : MapArith) :
    exec (.set d) (withArith s A) = .next { withArith s A with
      pos := truncate (clampTo s.params.invertedClamp s.cal.min s.cal.max
        (.fin (unitsOf s.cal.zero + x * (selectGain s.cal (.fin x)).toNat)))
      response := some ⟨.ok, 0⟩ } :=
  exec_set_of_mapPosition (s := withArith s A) hd (by
    rw [setInput_of_some hx]; exact mapPosition_eq_exact (withArith s A).params s.cal hmul hadd)

/-- The inputs R145 lists, 0, -0 and ±0.25, ±0.5, ±0.75, ±1, ±2, each with its number of quarters. -/
def listedQuarters : List (Word × Int) :=
  [(0x00000000, 0), (0x80000000, 0), (0x3E800000, 1), (0xBE800000, -1), (0x3F000000, 2), (0xBF000000, -2), (0x3F400000, 3),
    (0xBF400000, -3), (0x3F800000, 4), (0xBF800000, -4), (0x40000000, 8), (0xC0000000, -8)]

/-- The patterns alone. -/
def listedInputs : List Word := listedQuarters.map Prod.fst

theorem f32_of_mem_listedQuarters :
    ∀ c ∈ listedQuarters, c.2.natAbs ≤ 8 ∧ f32 c.1 = some (.fin (c.2 * 2 ^ 147)) := by decide

/-- A few quarters times a field, and a field plus that, stay far below 24 bits of quarters. -/
theorem binary32Value_quarters {q : Int} (hq : q.natAbs ≤ 8) (g z : Half) :
    binary32Value (q * 2 ^ 147 * g.toNat) ∧ binary32Value (unitsOf z + q * 2 ^ 147 * g.toNat) := by
  have hprod : (q * g.toNat).natAbs ≤ 8 * 2 ^ 16 := by
    rw [Int.natAbs_mul]
    exact Nat.mul_le_mul hq g.isLt.le
  have hz := z.isLt
  constructor
  · rw [mul_right_comm]
    exact binary32Value_mul_two_pow (by omega) (by decide)
  · have hsum : unitsOf z + q * 2 ^ 147 * g.toNat = (4 * z.toNat + q * g.toNat) * 2 ^ 147 := by
      rw [unitsOf, unitsPerOne]; ring
    rw [hsum]
    exact binary32Value_mul_two_pow (by omega) (by decide)

theorem exact_of_mem_listedInputs {d : Word} (h : d ∈ listedInputs) :
    ∃ x, f32 d = some (.fin x) ∧ ∀ g z : Half, binary32Value (x * g.toNat) ∧ binary32Value (unitsOf z + x * g.toNat) := by
  obtain ⟨c, hc, rfl⟩ := List.mem_map.1 h
  obtain ⟨hq, hd⟩ := f32_of_mem_listedQuarters c hc
  exact ⟨_, hd, binary32Value_quarters hq⟩

/-- SET of a listed input under any `MAP_ARITH` stores what it stores under exact arithmetic. -/
theorem exec_set_of_mem_listedInputs {d : Word} (h : d ∈ listedInputs) {s : State} (hd : setDraws d s = false) {p : Half}
    (hp : mapPosition { s.params with mapArith := .exact } s.cal (setInput d) (selectGain s.cal (setInput d)) = p)
    (A : MapArith) : exec (.set d) (withArith s A) = .next { withArith s A with pos := p, response := some ⟨.ok, 0⟩ } := by
  obtain ⟨x, hx, hexact⟩ := exact_of_mem_listedInputs h
  obtain ⟨hmul, hadd⟩ := hexact (selectGain s.cal (.fin x)) s.cal.zero
  rw [exec_set_of_exact hx hd hmul hadd, ← hp, setInput_of_some hx]
  rfl

/-- The source's inputs under the default calibration, with the `pos` of each (R145). -/
def sourceValues : List (Word × Half) :=
  [(0x00000000, 15000), (0x3F800000, 20000), (0x3F000000, 17500), (0xBF800000, 10000), (0x40000000, 21000), (0xC0000000, 9000)]

/-- Stated by `List.Forall`, which is decided entry by entry; a bounded quantifier would be decided by listing
`Word × Half`. -/
theorem mapPosition_sourceValues : sourceValues.Forall fun c => c.1 ∈ listedInputs ∧ setDraws c.1 State.reset = false ∧
    mapPosition { Params.default with mapArith := .exact } Calibration.initial (setInput c.1)
      (selectGain Calibration.initial (setInput c.1)) = c.2 := by decide

theorem exec_set_of_mem_sourceValues {c : Word × Half} (h : c ∈ sourceValues) (A : MapArith) :
    exec (.set c.1) (withArith State.reset A) =
      .next { withArith State.reset A with pos := c.2, response := some ⟨.ok, 0⟩ } := by
  obtain ⟨hmem, hd, hp⟩ := List.forall_iff_forall_mem.1 mapPosition_sourceValues c h
  exact exec_set_of_mem_listedInputs hmem hd hp A

/-- Settles O25: exact inputs do not see `MAP_ARITH`, the listed inputs are exact for every gain and zero, and NaN maps to the zero
offset. -/
theorem exactInputsMapAlikeUnderEveryArithmetic : Obligations.ExactInputsMapAlikeUnderEveryArithmetic := by
  refine ⟨fun d s x hx hd hmul hadd => ⟨_, exec_set_of_exact hx hd hmul hadd⟩, fun _ hd => exact_of_mem_listedInputs hd,
    fun A _ hc => exec_set_of_mem_sourceValues hc A, fun A => ?_⟩
  obtain ⟨-, hset⟩ := nanAndZeroMapToTheClampedZero 0x7FC00000
    (withArith { State.reset with cal := ⟨1000, 1000, 13000, 10000, 20000, 200⟩ } A) (.inl (by decide))
  exact hset (show (10000 : Half) ≤ 20000 by decide)

end Sys2Proof.Machine
end

section
/-! SUPPORT. The raw path and the two read accessors (42_mapper.md R140 to R142). -/

namespace Sys2Proof.Machine

/-- Settles O26, from the equation of the command. -/
theorem setRawStoresTheOperand : Obligations.SetRawStoresTheOperand := fun w s => exec_setRaw s w

/-- Settles O27, from the equation of the command. -/
theorem getPwmReadsPos : Obligations.GetPwmReadsPos := exec_getPwm

/-- Settles O28: the product of a byte and 1000 fits in 32 bits. -/
theorem getUpdatePeriodScales : Obligations.GetUpdatePeriodScales :=
  fun s => ⟨_, exec_getUpdatePeriod s, s.cal.periodTicks_toNat⟩

end Sys2Proof.Machine
end

section
/-! SUPPORT. The calibration fields as RDCAL reads and WRCAL writes them (43_field_access.md R160, R161): what a field reads after a
write to it and after a write to another. -/

namespace Sys2Proof.Machine

/-- A value whose high byte is zero is its low byte. -/
theorem setWidth_low_of_high_zero {w : Half} (h : w.extractLsb' 8 8 = 0#8) :
    (w.extractLsb' 0 8).setWidth 32 = w.setWidth 32 := by
  have hhigh : (w.toNat >>> 8) % 2 ^ 8 = 0 := by rw [← BitVec.extractLsb'_toNat, h, BitVec.toNat_ofNat, Nat.zero_mod]
  refine BitVec.eq_of_toNat_eq ?_
  rw [BitVec.toNat_setWidth, BitVec.toNat_setWidth, BitVec.extractLsb'_toNat]
  omega

/-- After a write of a value that fits, that field reads the value and the others as before. The value matters to
`update_period` alone, which keeps its low byte (R161). -/
theorem Calibration.field_withField (c : Calibration) {k : CalField} {w : Half} (h : k.fits w = true) (j : CalField) :
    (c.withField k w).field j = if j = k then w.setWidth 32 else c.field j := by
  cases k with
  | updatePeriod =>
    cases j with
    | updatePeriod => exact setWidth_low_of_high_zero (eq_of_beq h)
    | gainPos | gainNeg | zero | min | max => rfl
  | gainPos | gainNeg | zero | min | max => cases j <;> rfl

/-- Settles O39, from what a field reads after a write to it and to another. -/
theorem rdcalReadsWhatWrcalWrote : Obligations.RdcalReadsWhatWrcalWrote := by
  intro k w s hw
  have hfield := s.cal.field_withField hw
  refine ⟨_, exec_wrcal s k w, ?_, fun j hj => (hfield j).trans (if_neg hj)⟩
  rw [exec_rdcal, State.respond_cal, State.setCal_cal, hfield, if_pos rfl]
  rfl

/-- Settles O37, from the equation of the command at each field. -/
theorem rdcalReadsTheField : Obligations.RdcalReadsTheField := fun s =>
  ⟨exec_rdcal s .gainPos, exec_rdcal s .gainNeg, exec_rdcal s .zero, exec_rdcal s .min, exec_rdcal s .max,
    exec_rdcal s .updatePeriod⟩

/-- Settles O38, from the equation of the command at each field. -/
theorem wrcalWritesTheField : Obligations.WrcalWritesTheField := fun w s =>
  ⟨exec_wrcal s .gainPos w, exec_wrcal s .gainNeg w, exec_wrcal s .zero w, exec_wrcal s .min w, exec_wrcal s .max w,
    exec_wrcal s .updatePeriod w⟩

end Sys2Proof.Machine
end

section
/-! SUPPORT. Where a step stops (60_exceptions.md R170 to R174): every command, and so every step, answers a next state or faults on a
LOAD or SAVE of a window that is not admitted; inputs that name only admitted windows stay so, and a run over them never stops. -/

namespace Sys2Proof.Machine

/-! ### One command, one step -/

/-- The command is a LOAD or SAVE at `a`, and the window there is not admitted. -/
def Instr.namesInadmissible (P : Params) (i : Instr) (a : Word) : Prop :=
  (i = .load a ∨ i = .save a) ∧ windowAdmitted P.admitted a = false

/-- A command completes, or faults on the window it names. -/
theorem exec_next_or_fault (i : Instr) (s : State) :
    (∃ t, exec i s = .next t) ∨ ∃ a, Instr.namesInadmissible s.params i a ∧ exec i s = .fault (.bufferWindow a) := by
  cases i with
  | load a =>
    rcases execLoad_cases a s with ⟨hw, e⟩ | ⟨-, -, e⟩ | ⟨-, -, e⟩
    · exact .inr ⟨a, ⟨.inl rfl, hw⟩, e⟩
    · exact .inl ⟨_, e⟩
    · exact .inl ⟨_, e⟩
  | save a =>
    rcases execSave_cases a s with ⟨hw, e⟩ | ⟨-, e⟩
    · exact .inr ⟨a, ⟨.inr rfl, hw⟩, e⟩
    · exact .inl ⟨_, e⟩
  | set d => rcases execSet_cases d s with ⟨-, e⟩ | ⟨-, e⟩ <;> exact .inl ⟨_, e⟩
  | init | enable | disable | setRaw | getPwm | getUpdatePeriod | rdcal | wrcal | getEnable => exact .inl ⟨_, rfl⟩

theorem exec_fault_of_namesInadmissible {i : Instr} {s : State} {a : Word} (h : Instr.namesInadmissible s.params i a) :
    exec i s = .fault (.bufferWindow a) := by
  obtain ⟨rfl | rfl, hw⟩ := h
  · exact (exec_load_fault_iff a s).2 hw
  · exact (exec_save_fault_iff a s).2 hw

/-- The oldest input is a frame of a LOAD or SAVE at `a`, and the window there is not admitted. -/
def State.presentsInadmissible (s : State) (a : Word) : Prop :=
  ∃ f rest i, s.inputs = .frame f :: rest ∧ decode f = .ok i ∧ Instr.namesInadmissible s.params i a

/-- A step completes, or faults on the window its frame names. -/
theorem step_next_or_fault (s : State) :
    (∃ t, step s = .next t) ∨ ∃ a, s.presentsInadmissible a ∧ step s = .fault (.bufferWindow a) := by
  cases hi : s.inputs with
  | nil => exact .inl ⟨_, step_idle hi⟩
  | cons x rest =>
    cases x with
    | reset => exact .inl ⟨_, step_reset hi⟩
    | store a v => exact .inl ⟨_, step_store hi⟩
    | frame f =>
      rw [step_frame hi]
      cases hd : decode f with
      | error e => exact .inl ⟨_, stepFrame_error hd _⟩
      | ok i =>
        rw [stepFrame_ok hd]
        exact (exec_next_or_fault i (s.setInputs rest)).imp_right
          fun ⟨a, hbad, e⟩ => ⟨a, ⟨f, rest, i, hi, hd, hbad⟩, e⟩

theorem step_fault_of_presentsInadmissible {s : State} {a : Word} (h : s.presentsInadmissible a) :
    step s = .fault (.bufferWindow a) := by
  obtain ⟨f, rest, i, hi, hd, hbad⟩ := h
  rw [step_frame hi, stepFrame_ok hd]
  exact exec_fault_of_namesInadmissible (s := s.setInputs rest) hbad

theorem step_fault_iff (s : State) (r : Fault) :
    step s = .fault r ↔ ∃ a, s.presentsInadmissible a ∧ r = .bufferWindow a := by
  constructor
  · intro h
    obtain ⟨t, e⟩ | ⟨a, hbad, e⟩ := step_next_or_fault s
    · cases h.symm.trans e
    · cases h.symm.trans e
      exact ⟨a, hbad, rfl⟩
  · rintro ⟨a, hbad, rfl⟩
    exact step_fault_of_presentsInadmissible hbad

theorem step_ne_refused (s : State) (r : Refusal) : step s ≠ .refused r := by
  intro h
  obtain ⟨t, e⟩ | ⟨a, -, e⟩ := step_next_or_fault s
  · cases h.symm.trans e
  · cases h.symm.trans e

/-- What the oldest input presents, with the window in the words of 20_memory.md R44. -/
theorem State.presentsInadmissible_iff (s : State) (a : Word) :
    s.presentsInadmissible a ↔ ∃ f rest, s.inputs = .frame f :: rest ∧
      (decode f = .ok (.load a) ∨ decode f = .ok (.save a)) ∧ ¬ admittedAt s.params.admitted a := by
  rw [← windowAdmitted_iff_admittedAt, Bool.not_eq_true]
  constructor
  · rintro ⟨f, rest, i, hi, hd, rfl | rfl, hw⟩
    · exact ⟨f, rest, hi, .inl hd, hw⟩
    · exact ⟨f, rest, hi, .inr hd, hw⟩
  · rintro ⟨f, rest, hi, hd | hd, hw⟩
    · exact ⟨f, rest, _, hi, hd, .inl rfl, hw⟩
    · exact ⟨f, rest, _, hi, hd, .inr rfl, hw⟩

/-- Settles O48: a step faults exactly where its oldest input presents an inadmissible window, and is a next state elsewhere. -/
theorem onlyInadmissibleWindowsStop : Obligations.OnlyInadmissibleWindowsStop := by
  refine fun s => ⟨fun r => ?_, step_ne_refused s⟩
  rw [step_fault_iff]
  simp only [State.presentsInadmissible_iff]
  constructor
  · rintro ⟨a, ⟨f, rest, hi, hd, ha⟩, hr⟩
    exact ⟨f, rest, a, hi, hd, ha, hr⟩
  · rintro ⟨f, rest, a, hi, hd, ha, hr⟩
    exact ⟨a, ⟨f, rest, hi, hd, ha⟩, hr⟩

/-! ### Runs over admitted windows -/

theorem Instr.windowOk_of_namesInadmissible {P : Params} {i : Instr} {a : Word} (h : Instr.namesInadmissible P i a) :
    Instr.windowOk P i = false := by
  obtain ⟨rfl | rfl, hw⟩ := h
  · exact hw
  · exact hw

/-- A frame that names an inadmissible window is no safe input. -/
theorem State.not_presentsInadmissible_of_safeInputs {s : State} (hs : s.safeInputs = true) (a : Word) :
    ¬ s.presentsInadmissible a := by
  rintro ⟨f, rest, i, hi, hd, hbad⟩
  have hsafe : Input.safe s.params (.frame f) = true := List.all_eq_true.1 hs _ (hi ▸ List.mem_cons_self)
  simp only [Input.safe, hd, Instr.windowOk_of_namesInadmissible hbad, Bool.false_eq_true] at hsafe

theorem step_next_of_safeInputs {s : State} (hs : s.safeInputs = true) : ∃ t, step s = .next t :=
  (step_next_or_fault s).resolve_right fun ⟨a, hbad, _⟩ => State.not_presentsInadmissible_of_safeInputs hs a hbad

/-- A step drops the oldest input and leaves the parameters, so what still waits is safe as before. -/
theorem step_safeInputs {s t : State} (hs : s.safeInputs = true) (h : step s = .next t) : t.safeInputs = true := by
  rw [State.safeInputs, step_inputs h, parametersNeverChange s t h]
  exact List.all_eq_true.2 fun x hx => List.all_eq_true.1 hs x (List.mem_of_mem_tail hx)

/-- Settles O49, by induction on the number of steps: safe inputs let a step complete, and the step leaves them safe. -/
theorem runsWithAdmittedWindowsNeverStop : Obligations.RunsWithAdmittedWindowsNeverStop := by
  intro k
  induction k with
  | zero => exact fun s _ => ⟨s, rfl⟩
  | succ k ih =>
    intro s hs
    obtain ⟨t, ht⟩ := step_next_of_safeInputs hs
    rw [run_next ht]
    exact ih t (step_safeInputs hs ht)

end Sys2Proof.Machine
end

section
/-! SUPPORT. The reset input against INIT (70_reset_and_hazards.md R190, R191), and the two orders of moving the clamp limits (R203):
what one write leaves of the other limit decides whether the clamp is inverted between the writes. -/

namespace Sys2Proof.Machine

/-! ### Reset -/

/-- Dropping the response forgets which one was given: all that tells a reset from INIT (R191). -/
@[simp] theorem State.noResponse_respond (s : State) (st : Status) (v : Word) : (s.respond st v).noResponse = s.noResponse := rfl

/-- Settles O10: the reset input and INIT both leave `State.toDefaults`, and differ in the response alone. -/
theorem resetInputAgreesWithInit : Obligations.ResetInputAgreesWithInit := by
  intro s rest hi
  refine ⟨step_reset hi, _, exec_init _, ?_⟩
  rw [State.noResponse_respond]
  exact step_reset hi

/-! ### Two writes of the clamp limits -/

section ClampLimits
variable {s : State} {lo hi : Half}

/-- Between the writes the clamp has the old `min` and the new `max`. -/
theorem wrcal_max_then_min (h : s.cal.min ≤ hi) :
    ∃ t u, exec (.wrcal .max hi) s = .next t ∧ exec (.wrcal .min lo) t = .next u ∧
      t.cal.min ≤ t.cal.max ∧ u.cal.min = lo ∧ u.cal.max = hi :=
  ⟨_, _, exec_wrcal s .max hi, exec_wrcal _ .min lo, h, rfl, rfl⟩

/-- Between the writes the clamp has the new `min` and the old `max`. -/
theorem wrcal_min_then_max (h : lo ≤ s.cal.max) :
    ∃ t u, exec (.wrcal .min lo) s = .next t ∧ exec (.wrcal .max hi) t = .next u ∧
      t.cal.min ≤ t.cal.max ∧ u.cal.min = lo ∧ u.cal.max = hi :=
  ⟨_, _, exec_wrcal s .min lo, exec_wrcal _ .max hi, h, rfl, rfl⟩

end ClampLimits

/-- Settles O40: `max` may go first where the old `min` is at most the new `max`, `min` where the new `min` is at most the old
`max`; a new interval wholly above the old one gives the former, one wholly below it the latter. -/
theorem clampLimitsMoveWithoutInverting : Obligations.ClampLimitsMoveWithoutInverting := by
  intro lo hi s hold hnew
  constructor
  · rintro (habove | ⟨-, hmin⟩)
    · have hmin : s.cal.min ≤ hi := BitVec.le_trans hold (BitVec.le_trans (BitVec.le_of_lt habove) hnew)
      exact wrcal_max_then_min hmin
    · exact wrcal_max_then_min hmin
  · rintro (hbelow | ⟨hmax, -⟩)
    · have hmax : lo ≤ s.cal.max := BitVec.le_trans hnew (BitVec.le_trans (BitVec.le_of_lt hbelow) hold)
      exact wrcal_min_then_max hmax
    · exact wrcal_min_then_max hmax

end Sys2Proof.Machine
end
